-- ==== Sys2Proof/Word.lean ====
section
/-!
DEFINITION. The words of the unit: its two word widths and the request the host presents.
-/

namespace Sys2Proof

/-- An UnsignedWord of 32 bits: a value and nothing more (R3, R4). -/
abbrev Word32 := BitVec 32

/-- An UnsignedWord of 64 bits, the width of the operand and result buses (R3, R4). -/
abbrev Word64 := BitVec 64

/-- The word width of one operation: "32 or 64 and nothing else" (R3). -/
inductive Width where
  | w32
  | w64
  deriving DecidableEq, Repr

/-- The number of bits of a width (R3). -/
abbrev Width.bits : Width → Nat
  | .w32 => 32
  | .w64 => 64

/-- What the request register holds: the operation code, the CLZ operand or dividend, the divisor (R11). -/
structure Request where
  op : BitVec 2
  a : Word64
  b : Word64
  deriving DecidableEq, Repr

end Sys2Proof
end

