-- ==== Sys2Proof/Config.lean ====
section
/-!
DEFINITION. What one unit fixes: the packet lengths, and the values this model names where the spec
leaves a reset value unspecified. The parameters LATENCY (R85) and N_UNITS (R77) are not here: no rule depends on the first,
and the second is an argument of Machine/Platform.lean.
-/

namespace Sys2Proof.Config

/-- The length of a request packet: "always 130 bits" (R30, R36). -/
abbrev requestBits : Nat := 130

/-- The length of a response packet (R34). -/
abbrev responseBits : Nat := 129

/-- SHIFT after reset. DESIGN CHOICE (log 3), unsafe: R17 says "unspecified". -/
def resetShift : Fin 64 := 0

/-- DVS, BW, REM and QACC after reset. DESIGN CHOICE (log 3), unsafe: R17 says "unspecified". -/
def resetEngineWord : Word64 := 0

end Sys2Proof.Config
end

