-- ==== Sys2Proof/Syntax.lean ====
section
/-!
DEFINITION. The four operations of spec/opcode_table.json.
-/

namespace Sys2Proof

/-- One operation with the two operand fields of its request, whole: a bit that the operation does not read (R32, R33)
is kept, so that no bit of a packet is dropped by decoding (log 12). -/
inductive Instr where
  /-- CLZ32, op = 0b00 (R31, R43). -/
  | clz32 (a b : Word64)
  /-- CLZ64, op = 0b01 (R31, R44). -/
  | clz64 (a b : Word64)
  /-- DIVU32, op = 0b10 (R31, R62). -/
  | divu32 (a b : Word64)
  /-- DIVU64, op = 0b11 (R31, R63). -/
  | divu64 (a b : Word64)
  deriving DecidableEq, Repr

end Sys2Proof
end

