-- ==== Sys2Proof/WellFormed.lean ====
section
/-!
DEFINITION. Which requests are well formed, and which of them the assembler writes.
R36: "no request is illegal, none is reserved, none is a hint". So there is no check that a term of Instr can fail, and every
statement about requests is about all of them. What can fail is the form R37 gives what the ASSEMBLER writes:
zeros in bits 63 to 32 of a 32-bit operation's operands, and b = 0 for a count.
-/

namespace Sys2Proof

/-- The value fits in 32 bits: its bits 63 to 32 are zero. -/
def fits32 (v : Word64) : Bool := v.toNat < 2 ^ 32

/-- The forms the assembler of R37 writes, one check for each of its two promises. -/
def Instr.canonical : Instr → Bool
  | .clz32 a b => fits32 a && b == 0
  | .clz64 _ b => b == 0
  | .divu32 a b => fits32 a && fits32 b
  | .divu64 _ _ => true

end Sys2Proof
end

