-- ==== Sys2Proof/Decode.lean ====
section
/-!
DEFINITION. The request packet, its decoder and its encoder (R30, R31, R36).
The decoder is total on packets. A string of bits that is not a packet is refused by name.
-/

namespace Sys2Proof

/-- The fields of a packet (R30): op at bits 129:128, a at 127:64, b at 63:0. -/
def Request.ofPacket (p : BitVec Config.requestBits) : Request where
  op := p.extractLsb' 128 2
  a := p.extractLsb' 64 64
  b := p.extractLsb' 0 64

/-- The packet `op ‖ a ‖ b` (R30). -/
def Request.toPacket (r : Request) : BitVec Config.requestBits := r.op ++ r.a ++ r.b

/-- The operation of a request (R31): `op[1]` selects the function, `op[0]` the width. -/
def decodeRequest (r : Request) : Instr :=
  match r.op.getLsbD 1, r.op.getLsbD 0 with
  | false, false => .clz32 r.a r.b
  | false, true => .clz64 r.a r.b
  | true, false => .divu32 r.a r.b
  | true, true => .divu64 r.a r.b

/-- The operation of a packet (R30, R31). Total: R36. -/
def decodePacket (p : BitVec Config.requestBits) : Instr := decodeRequest (.ofPacket p)

/-- Why a string of bits is not a request. -/
inductive DecodeError where
  /-- A bit above bit 129 is set: "the length of a request is always 130 bits" (R36). -/
  | longerThanARequest
  deriving DecidableEq, Repr

/-- The operation of the `nbits` bits of `w`, bit 0 the least significant; the bits above `nbits` are zero. -/
def decodeBits (nbits w : Nat) : Except DecodeError Instr :=
  let v := w % 2 ^ nbits
  if v < 2 ^ Config.requestBits then .ok (decodePacket (BitVec.ofNat Config.requestBits v))
  else .error .longerThanARequest

/-- The decoder as the opcode table numbers a request's bits (log 11): bit 0 is bit 0 of the packet. The unit has no byte
order (R21), so there is nothing to lay out. -/
def decodeTableWord (nbits w : Nat) : Option Instr :=
  match decodeBits nbits w with
  | .ok i => some i
  | .error _ => none

/-- The request of an operation, by the table of R31. -/
def encodeRequest : Instr → Request
  | .clz32 a b => ⟨0b00#2, a, b⟩
  | .clz64 a b => ⟨0b01#2, a, b⟩
  | .divu32 a b => ⟨0b10#2, a, b⟩
  | .divu64 a b => ⟨0b11#2, a, b⟩

/-- The packet of an operation (R30, R31). -/
def encodePacket (i : Instr) : BitVec Config.requestBits := (encodeRequest i).toPacket

end Sys2Proof
end

