-- ==== Sys2Proof/Machine/State.lean ====
section
/-!
DEFINITION. The state of one unit, the host's actions on it, the reasons a step can stop, and the state after reset.
-/

namespace Sys2Proof.Machine

/-- The status of a response: its two values (R13). -/
inductive Status where
  | ok
  | divisionByZero
  deriving DecidableEq, Repr

/-- What the response register holds: status, quotient or count, remainder (R12). -/
structure Response where
  st : Status
  q : Word64
  r : Word64
  deriving DecidableEq, Repr

/-- The five working registers of the divide engine, at `n` bits (R15). -/
structure Regs (n : Nat) where
  /-- SHIFT, an integer from 0 to W - 1. -/
  shift : Fin 64
  /-- DVS, the divisor, aligned left and then shifted right once a step. -/
  dvs : BitVec n
  /-- BW, the weight of the quotient bit that DVS represents. -/
  bw : BitVec n
  /-- REM, the partial remainder. -/
  rem : BitVec n
  /-- QACC, the quotient bits set so far. -/
  qacc : BitVec n
  deriving DecidableEq, Repr

/-- Where the unit is (R68, R78): idle, or busy with one operation. Each busy phase holds what the unit sampled on
acceptance and still needs (R11, R84). -/
inductive Phase where
  /-- IDLE, no operation in flight. -/
  | idle
  /-- A request has been accepted and sampled; its operation has not begun (log 6). -/
  | accepted (r : Request)
  /-- ALIGN: a general-case divide of width `w`, dividend `a`, divisor `b`; the working registers are not loaded yet. -/
  | align (w : Width) (a b : BitVec w.bits)
  /-- ITER: the working registers hold a divide of width `w`. -/
  | iter (w : Width)
  /-- DONE: the response is computed and not written yet. -/
  | done (p : Response)
  deriving DecidableEq, Repr

/-- What the host may do at the interface (R11, R80, R84). The names and their order in time are the model's (log 8). -/
inductive HostAction where
  /-- Issue a request: write REQ (R11). -/
  | issue (r : Request)
  /-- Leave the unit alone for one step; an accepted operation runs whole (R24, R38). -/
  | wait
  /-- Leave the unit alone for one arrow of R68. -/
  | tick
  /-- Read RESP (R12, R84). -/
  | read
  /-- Assert reset (R80). -/
  | reset
  deriving DecidableEq, Repr

/-- Everything the spec gives one unit, and the host's side of its interface. -/
structure State where
  /-- REQ, the request register; `none` while it holds no request (R11, R17). -/
  req : Option Request
  /-- RESP, the response register; `none` while it holds no value (R12, R17). -/
  resp : Option Response
  /-- Idle, or busy with the operation in flight (R68, R78). -/
  phase : Phase
  /-- The engine's working registers, zero-extended to 64 bits (R15, log 4). -/
  eng : Regs 64
  /-- The MODEL'S: the host's actions still to come, the next one first (log 8). -/
  host : List HostAction
  /-- The MODEL'S: the responses the host has read, the oldest first (log 8). -/
  taken : List Response
  deriving DecidableEq, Repr

/-- The reasons a step faults. Both are the host's misreads of RESP; no operation faults (R70). -/
inductive Fault where
  /-- Raised by a host read of RESP before the first response after reset: "a model treats a host read of RESP before then as a
  fault (the read of an unwritten register)" (R80; R17, D16, I4). Safe: toward unprovable, as D16 says. -/
  | respUnwritten
  /-- Raised by a host read of RESP while an operation is in flight: "a model treats a host read of RESP in that window as a
  fault" (R84; D17, I6). Safe: toward unprovable, as D17 says. -/
  | respStale
  deriving DecidableEq, Repr

/-- The reasons a step is refused. No operation is (R36). -/
inductive Refusal where
  /-- An instruction without a meaning. No arm of `exec` raises it. Safe. -/
  | notModelled (mnemonic : String)
  deriving DecidableEq, Repr

/-- The unit right after reset (R17, R80, R81): idle, REQ holds no request, RESP no value. The working registers are
unspecified there; their values are the model's (log 3). So are the empty lists of the host's side (log 8). -/
def State.reset : State where
  req := none
  resp := none
  phase := .idle
  eng :=
    { shift := Config.resetShift
      dvs := Config.resetEngineWord
      bw := Config.resetEngineWord
      rem := Config.resetEngineWord
      qacc := Config.resetEngineWord }
  host := []
  taken := []

end Sys2Proof.Machine
end

