-- ==== Sys2Proof/Machine/Flags.lean ====
section
/-!
DEFINITION. The status, the only flag of the unit (R13).
-/

namespace Sys2Proof.Machine

/-- RESP.st: Ok is 0, DivisionByZero is 1 (R13, R34, R71). -/
def Status.bit : Status → BitVec 1
  | .ok => 0
  | .divisionByZero => 1

/-- The status a bit of a response packet stands for (R34). -/
def Status.ofBit (v : BitVec 1) : Status := if v = 1 then .divisionByZero else .ok

/-- A divide writes DivisionByZero when its divisor is zero and Ok otherwise (R13). -/
def divideStatus {n : Nat} (b : BitVec n) : Status := if b = 0 then .divisionByZero else .ok

end Sys2Proof.Machine
end

