-- ==== Sys2Proof/Machine/Operands.lean ====
section
/-!
DEFINITION. The operand forms (R5, R32, R33) and the widening of results (R35, R23).
-/

namespace Sys2Proof.Machine

/-- `lo(v) = v[31:0]` (R5). -/
def lo (v : Word64) : Word32 := v.extractLsb' 0 32

/-- `hi(v) = v[63:32]` (R5). -/
def hi (v : Word64) : Word32 := v.extractLsb' 32 32

/-- `operand_W(field)`: the low half at W = 32, the whole field at W = 64 (R33). -/
def operand : (w : Width) → Word64 → BitVec w.bits
  | .w32, v => lo v
  | .w64, v => v

/-- `zext_64(v)` of a W-bit result (R35). -/
def zext64 {n : Nat} (v : BitVec n) : Word64 := v.setWidth 64

/-- A count as a result field: `zext_64(count)` (R35). -/
def countField (n : Nat) : Word64 := BitVec.ofNat 64 n

end Sys2Proof.Machine
end

