-- ==== Sys2Proof/Machine/Ops.lean ====
section
/-!
DEFINITION. The named operations on the interface registers and the working registers.
There is no operation for taking an exception and none for returning from one: the unit has no trap entry (R73) and no trap
return (R74). There is none on memory: the unit has no memory (R20).
-/

namespace Sys2Proof.Machine

/-- The packet `st ‖ q ‖ r` of a response (R34). -/
def Response.toPacket (p : Response) : BitVec Config.responseBits := p.st.bit ++ p.q ++ p.r

/-- The response a packet stands for (R34): st at bit 128, q at 127:64, r at 63:0. -/
def Response.ofPacket (v : BitVec Config.responseBits) : Response where
  st := .ofBit (v.extractLsb' 128 1)
  q := v.extractLsb' 64 64
  r := v.extractLsb' 0 64

/-- Complete an operation: write RESP, all three fields at once, and be idle again (R12, R24, R68 DONE). -/
def State.respond (s : State) (p : Response) : State := { s with resp := some p, phase := .idle }

/-- The host writes REQ and the idle unit accepts the request, sampling it (R11, R84, log 6). -/
def State.accept (s : State) (r : Request) : State := { s with req := some r, phase := .accepted r }

/-- Reset (R17, R80): the unit is as `State.reset` has it, an operation in flight is gone. The host's own lists stay (log 9). -/
def State.resetUnit (s : State) : State := { State.reset with host := s.host, taken := s.taken }

/-- A host read of RESP (R12). Before the first response after reset "a model treats a host read of RESP before then as a
fault" (R80, I4); from acceptance to the response "a model treats a host read of RESP in that window as a fault" (R84, I6). -/
def State.readResp (s : State) : Except Fault Response :=
  match s.phase, s.resp with
  | .idle, some p => .ok p
  | .idle, none => .error .respUnwritten
  | _, _ => .error .respStale

/-- Working registers of `n` bits as State holds them: zero-extended to 64 (log 4). -/
def Regs.widen {n : Nat} (e : Regs n) : Regs 64 where
  shift := e.shift
  dvs := e.dvs.setWidth 64
  bw := e.bw.setWidth 64
  rem := e.rem.setWidth 64
  qacc := e.qacc.setWidth 64

/-- The working registers an engine of `n` bits sees: the low `n` bits of what State holds (log 4). -/
def Regs.narrow (n : Nat) (e : Regs 64) : Regs n where
  shift := e.shift
  dvs := e.dvs.setWidth n
  bw := e.bw.setWidth n
  rem := e.rem.setWidth n
  qacc := e.qacc.setWidth n

/-- Place a request where the next step runs it: in REQ, accepted, with the host waiting (log 10). -/
def State.placeRequest (s : State) (r : Request) : State :=
  { s.accept r with host := .wait :: s.host }

end Sys2Proof.Machine
end

