-- ==== Sys2Proof/Machine/Clz.lean ====
section
/-!
DEFINITION. The leading-zero count (BitLength) and the meanings of CLZ32 and CLZ64 (R40 to R44).
-/

namespace Sys2Proof.Machine

/-- The recursion of R41, with the number of shifts still allowed. -/
def clz32Rec : Nat → Word32 → Nat
  | 0, _ => 32
  | n + 1, x => if x = 0 then 32 else clz32Rec n (x >>> 1) - 1

/-- The 32-bit count (R41). The depth is at most 32 (R88): a word is zero after 32 shifts. -/
def clz32 (x : Word32) : Nat := clz32Rec 32 x

/-- The 64-bit count, composed from the 32-bit one (R42). -/
def clz64 (x : Word64) : Nat := if hi x ≠ 0 then clz32 (hi x) else 32 + clz32 (lo x)

/-- `clz_W` (R42). -/
def clz : (w : Width) → BitVec w.bits → Nat
  | .w32, x => clz32 x
  | .w64, x => clz64 x

/-- The response of a count: the count in q, r zero, Ok (R43, R44, R35). -/
def countResponse (n : Nat) : Response := ⟨.ok, countField n, 0⟩

/-- CLZ32 (R43): REQ.b is not read, nor are bits 63 to 32 of REQ.a. -/
def execClz32 (a : Word64) (s : State) : Host.Outcome State Fault Refusal :=
  .next (s.respond (countResponse (clz32 (operand .w32 a))))

/-- CLZ64 (R44): REQ.b is not read. -/
def execClz64 (a : Word64) (s : State) : Host.Outcome State Fault Refusal :=
  .next (s.respond (countResponse (clz64 (operand .w64 a))))

end Sys2Proof.Machine
end

