-- ==== Sys2Proof/Machine/Engine.lean ====
section
/-!
DEFINITION. The shift-and-subtract engine at both widths (R55 to R60).
-/

namespace Sys2Proof.Machine

/-- Step 1, the alignment distance `clz_W(b) - clz_W(a)` (R56). -/
def alignShift (w : Width) (a b : BitVec w.bits) : Nat := clz w b - clz w a

/-- Step 2, align and load (R57). -/
def load (w : Width) (a b : BitVec w.bits) : Regs w.bits where
  shift := Fin.ofNat 64 (alignShift w a b)
  dvs := b <<< alignShift w a b
  bw := (1 : BitVec w.bits) <<< alignShift w a b
  rem := a
  qacc := 0

/-- Step 3, one iteration (R58). -/
def Regs.iterate {n : Nat} (e : Regs n) : Regs n where
  shift := e.shift
  dvs := e.dvs >>> 1
  bw := e.bw >>> 1
  rem := if e.dvs ≤ e.rem then e.rem - e.dvs else e.rem
  qacc := if e.dvs ≤ e.rem then e.qacc ||| e.bw else e.qacc

/-- The loop ends: `BW == 0 or REM == 0` (R59). -/
def Regs.finished {n : Nat} (e : Regs n) : Bool := e.bw == 0 || e.rem == 0

/-- Step 3, loop control (R59): iterate once, then again until finished. The first argument bounds the iterations. -/
def Regs.loop {n : Nat} : Nat → Regs n → Regs n
  | 0, e => e
  | k + 1, e => if e.iterate.finished then e.iterate else e.iterate.loop k

/-- How many iterations the loop runs (R69). -/
def Regs.loopCount {n : Nat} : Nat → Regs n → Nat
  | 0, _ => 0
  | k + 1, e => if e.iterate.finished then 1 else e.iterate.loopCount k + 1

/-- The working registers when the engine ends: at most W iterations (R59). -/
def engineRun (w : Width) (a b : BitVec w.bits) : Regs w.bits := (load w a b).loop w.bits

/-- `engine_W(a, b) = (QACC, REM)` (R59, R60). -/
def engine (w : Width) (a b : BitVec w.bits) : BitVec w.bits × BitVec w.bits :=
  ((engineRun w a b).qacc, (engineRun w a b).rem)

/-- `n(a, b)`, the engine's iteration count (R69). -/
def iterationCount (w : Width) (a b : BitVec w.bits) : Nat := (load w a b).loopCount w.bits

end Sys2Proof.Machine
end

