-- ==== Sys2Proof/Machine/Divide.lean ====
section
/-!
DEFINITION. The unsigned divide (Divider): the edge policy and the meanings of DIVU32 and DIVU64 (R50 to R55, R62, R63).
-/

namespace Sys2Proof.Machine

/-- The general case of the edge policy: none of its first three conditions holds, so `a > b > 0` (R51, R55). -/
def generalCase {n : Nat} (a b : BitVec n) : Bool := b != 0 && b < a

/-- `div_W`: the conditions "checked in this order; first match wins" (R51 to R55). -/
def divide (w : Width) (a b : BitVec w.bits) : Status × BitVec w.bits × BitVec w.bits :=
  if b = 0 then (.divisionByZero, BitVec.allOnes w.bits, 0)
  else if b = a then (.ok, 1, 0)
  else if a < b then (.ok, 0, a)
  else (.ok, engine w a b)

/-- The response of a divide at width W, its results zero-extended (R62, R35). -/
def divideResponse (w : Width) (a b : BitVec w.bits) : Response :=
  ⟨(divide w a b).1, zext64 (divide w a b).2.1, zext64 (divide w a b).2.2⟩

/-- The working registers after a divide at width W: those of the engine's run where it ran, unchanged elsewhere (log 5). -/
def State.afterEngine (s : State) (w : Width) (a b : BitVec w.bits) : State :=
  if generalCase a b then { s with eng := (engineRun w a b).widen } else s

/-- A whole divide at width W: the engine where the edge policy reaches it, then the response. -/
def State.divideAt (s : State) (w : Width) (a b : BitVec w.bits) : State :=
  (s.afterEngine w a b).respond (divideResponse w a b)

/-- The response of a 64-bit divide by zero: the sentinel at W = 64 (R52, R63). -/
def sentinel64 : Response := ⟨.divisionByZero, BitVec.allOnes 64, 0⟩

/-- DIVU32 (R62). -/
def execDivu32 (a b : Word64) (s : State) : Host.Outcome State Fault Refusal :=
  .next (s.divideAt .w32 (operand .w32 a) (operand .w32 b))

/-- DIVU64 (R63): divisor zero first, at W = 64; then the 32-bit fast path; then the divide at W = 64. -/
def execDivu64 (a b : Word64) (s : State) : Host.Outcome State Fault Refusal :=
  if b = 0 then .next (s.respond sentinel64)
  else if hi a = 0 ∧ hi b = 0 then .next (s.divideAt .w32 (lo a) (lo b))
  else .next (s.divideAt .w64 a b)

end Sys2Proof.Machine
end

