-- ==== Sys2Proof/Machine/Dispatch.lean ====
section
/-! DEFINITION. One arm for each operation. -/

namespace Sys2Proof.Machine

def exec (i : Instr) (s : State) : Host.Outcome State Fault Refusal :=
  match i with
  -- 40_clz.md
  | .clz32 a _ => Sys2Proof.Machine.execClz32 a s
  | .clz64 a _ => Sys2Proof.Machine.execClz64 a s
  -- 41_divu.md
  | .divu32 a b => Sys2Proof.Machine.execDivu32 a b s
  | .divu64 a b => Sys2Proof.Machine.execDivu64 a b s

end Sys2Proof.Machine
end

