-- ==== Sys2Proof/Machine/Phases.lean ====
section
/-!
DEFINITION. The step-level form of the unit: one arrow of the state machine of R68 a step (D20).
It is written from R68 on its own, not from the meanings; that the two agree is a statement.
-/

namespace Sys2Proof.Machine

/-- What R68 does with an accepted request. -/
inductive Start where
  /-- "any other case": the response is known at once. -/
  | direct (p : Response)
  /-- "op = DIVU_W, edge policy case 4": the engine at width `w` has to run. -/
  | engine (w : Width) (a b : BitVec w.bits)
  deriving DecidableEq, Repr

/-- The edge policy at width W as R68 uses it: case 4 goes to the engine, the rest to DONE (R51). -/
def startDivide (w : Width) (a b : BitVec w.bits) : Start :=
  if b = 0 then .direct ⟨.divisionByZero, zext64 (BitVec.allOnes w.bits), 0⟩
  else if b = a then .direct ⟨.ok, 1, 0⟩
  else if a < b then .direct ⟨.ok, 0, zext64 a⟩
  else .engine w a b

/-- The arrows out of IDLE (R68), with R63's order for DIVU64. -/
def start : Instr → Start
  | .clz32 a _ => .direct (countResponse (clz32 (operand .w32 a)))
  | .clz64 a _ => .direct (countResponse (clz64 (operand .w64 a)))
  | .divu32 a b => startDivide .w32 (operand .w32 a) (operand .w32 b)
  | .divu64 a b =>
    if b = 0 then .direct sentinel64
    else if hi a = 0 ∧ hi b = 0 then startDivide .w32 (lo a) (lo b)
    else startDivide .w64 a b

/-- The phase an accepted request leads to (R68). -/
def Start.phase : Start → Phase
  | .direct p => .done p
  | .engine w a b => .align w a b

/-- The phase after an iteration that left `e` (R59, R60, R68). -/
def Regs.nextPhase {w : Width} (e : Regs w.bits) : Phase :=
  if e.finished then .done ⟨.ok, zext64 e.qacc, zext64 e.rem⟩ else .iter w

/-- One iteration on the working registers State holds, at width W (R58). -/
def State.iterate (s : State) (w : Width) : Regs w.bits := (s.eng.narrow w.bits).iterate

/-- One arrow of R68. An idle unit stays as it is: it waits for a request (R27, R81, log 17). -/
def State.tick (s : State) : State :=
  match s.phase with
  | .idle => s
  | .accepted r => { s with phase := (start (decodeRequest r)).phase }
  | .align w a b => { s with eng := (load w a b).widen, phase := .iter w }
  | .iter w => { s with eng := (s.iterate w).widen, phase := (s.iterate w).nextPhase }
  | .done p => s.respond p

end Sys2Proof.Machine
end

