-- ==== Sys2Proof/Machine/Cycle.lean ====
section
/-!
DEFINITION. One step of the unit and its host: the host's next action lands, or the unit goes on.
-/

namespace Sys2Proof.Machine

/-- The unit goes on by itself: an accepted request is decoded and runs whole (R24); an operation that `tick` began goes on
by one arrow of R68; an idle unit waits. -/
def State.proceed (s : State) : Host.Outcome State Fault Refusal :=
  match s.phase with
  | .accepted r => exec (decodeRequest r) s
  | _ => .next s.tick

/-- The host issues a request. An idle unit accepts it; a busy one goes on, and the action stays first in the host's
list (log 6). `rest` is the list without it. -/
def State.issue (s : State) (r : Request) (rest : List HostAction) : Host.Outcome State Fault Refusal :=
  match s.phase with
  | .idle => .next { s.accept r with host := rest }
  | _ => s.proceed

/-- The host reads RESP (R12, R80, R84). The read changes nothing of the unit (R24); what it gave is kept in `taken`. -/
def State.read (s : State) : Host.Outcome State Fault Refusal :=
  match s.readResp with
  | .ok p => .next { s with taken := s.taken ++ [p] }
  | .error f => .fault f

/-- One step: the host's next action, or the unit alone where the host has none left. -/
def State.cycle (s : State) : Host.Outcome State Fault Refusal :=
  match s.host with
  | [] => s.proceed
  | .issue r :: rest => s.issue r rest
  | .wait :: rest => { s with host := rest : State }.proceed
  | .tick :: rest => .next { s with host := rest : State }.tick
  | .read :: rest => { s with host := rest : State }.read
  | .reset :: rest => .next { s with host := rest : State }.resetUnit

end Sys2Proof.Machine
end

