-- ==== Sys2Proof/Machine/Step.lean ====
section
/-!
DEFINITION. The step of the machine, and how a request is placed so that the very next step runs it.
-/

namespace Sys2Proof.Machine

/-- One step of the unit and its host. -/
def step (s : State) : Host.Outcome State Fault Refusal := s.cycle

/-- `s` with the request of the opcode table's word `w` accepted and the host waiting, so that the next step runs exactly
it (log 10, log 11). -/
def State.withFetchWord (s : State) (nbits w : Nat) : State :=
  s.placeRequest (.ofPacket (BitVec.ofNat Config.requestBits (w % 2 ^ nbits)))

end Sys2Proof.Machine
end

