-- ==== Sys2Proof/Machine/Assembler.lean ====
section
/-!
DEFINITION. The assembler of R37: from a source line to a request. What a line's characters look like is left out (log 16).
-/

namespace Sys2Proof.Machine

/-- An operand of a source line: "a literal or the name of a host variable" (R37). -/
inductive AsmOperand where
  | literal (n : Nat)
  | hostVar (name : String)
  deriving DecidableEq, Repr

/-- A source line (R37). -/
inductive AsmLine where
  | clz32 (a : AsmOperand)
  | clz64 (a : AsmOperand)
  | divu32 (a b : AsmOperand)
  | divu64 (a b : AsmOperand)
  deriving DecidableEq, Repr

/-- Why the assembler refuses a line. -/
inductive AsmError where
  /-- "refuses a literal of more than W bits" (R37). -/
  | literalTooWide
  /-- The line names a host variable that the host has not set (log 16). -/
  | unknownVariable
  deriving DecidableEq, Repr

/-- The host's variables by name, each a 64-bit value (R38). -/
abbrev AsmVars := List (String × Word64)

/-- The operand field of an operand at width W, bits 63 to W zero (R37). -/
def AsmOperand.field (w : Width) (vars : AsmVars) : AsmOperand → Except AsmError Word64
  | .literal n => if n < 2 ^ w.bits then .ok (BitVec.ofNat 64 n) else .error .literalTooWide
  | .hostVar x =>
    match vars.lookup x with
    | some v => .ok (zext64 (operand w v))
    | none => .error .unknownVariable

/-- The operation of a source line (R37): "It writes b = 0 for a CLZ operation". -/
def AsmLine.assemble (vars : AsmVars) : AsmLine → Except AsmError Instr
  | .clz32 a => do return .clz32 (← a.field .w32 vars) 0
  | .clz64 a => do return .clz64 (← a.field .w64 vars) 0
  | .divu32 a b => do return .divu32 (← a.field .w32 vars) (← b.field .w32 vars)
  | .divu64 a b => do return .divu64 (← a.field .w64 vars) (← b.field .w64 vars)

end Sys2Proof.Machine
end

