-- ==== Sys2Proof/Machine/Platform.lean ====
section
/-!
DEFINITION. Several instances of the unit on one platform (R77, R25). Their number is the open parameter N_UNITS.
-/

namespace Sys2Proof.Machine

/-- `n` instances, each with a state of its own: "no state is shared" (R77). -/
abbrev Platform (n : Nat) := Vector State n

/-- One step of instance `k`. The others do not move (log 15). -/
def Platform.stepUnit {n : Nat} (p : Platform n) (k : Fin n) : Host.Outcome (Platform n) Fault Refusal :=
  match step p[k] with
  | .next t => .next (p.set k t)
  | .fault f => .fault f
  | .refused r => .refused r

end Sys2Proof.Machine
end

