-- ==== Sys2Proof/Safety.lean ====
section
/-!
DEFINITION. What claims are stated with: the response the spec's mathematics gives a request, the invariant of the machine,
and what a safe run is.
-/

namespace Sys2Proof.Machine

/-- `len(x)`: the number of bits up to and including the highest set bit, and `len(0) = 0` (R41). -/
def bitLen (n : Nat) : Nat := if n = 0 then 0 else n.log2 + 1

/-- The response of a divide at width W by R52 and R61 alone: the sentinel for a zero divisor, else `floor(a / b)` and
`a mod b` in the natural numbers. -/
def specDivide (w : Width) (a b : BitVec w.bits) : Response :=
  if b = 0 then ⟨.divisionByZero, BitVec.ofNat 64 (2 ^ w.bits - 1), 0⟩
  else ⟨.ok, BitVec.ofNat 64 (a.toNat / b.toNat), BitVec.ofNat 64 (a.toNat % b.toNat)⟩

/-- The response of an operation by the spec's mathematics: the closed form of the count (R41, R42), `specDivide` for the
divides. No recursion, no engine, no fast path. -/
def specResponse : Instr → Response
  | .clz32 a _ => ⟨.ok, BitVec.ofNat 64 (32 - bitLen (a.toNat % 2 ^ 32)), 0⟩
  | .clz64 a _ => ⟨.ok, BitVec.ofNat 64 (64 - bitLen a.toNat), 0⟩
  | .divu32 a b => specDivide .w32 (operand .w32 a) (operand .w32 b)
  | .divu64 a b => specDivide .w64 a b

/-- What holds of the working registers before each iteration of a divide of `a` by `b`, `k` the index of BW's set bit
(the derivation under R61; the last clause is R58's "sets one bit that is still 0"). -/
structure LoopInv (w : Width) (a b : BitVec w.bits) (k : Nat) (e : Regs w.bits) : Prop where
  product : a.toNat = e.qacc.toNat * b.toNat + e.rem.toNat
  weight : e.bw.toNat = 2 ^ k
  aligned : e.dvs.toNat = b.toNat * 2 ^ k
  bound : e.rem.toNat < 2 * e.dvs.toNat
  running : e.rem ≠ 0
  below : k ≤ e.shift.val
  fresh : 2 ^ (k + 1) ∣ e.qacc.toNat

/-- The unit is busy with an operation (R78). -/
def State.busy (s : State) : Bool := s.phase != .idle

/-- The invariant of the machine: what is in flight is the operation of the request in REQ, an ITER phase holds a divide of
it half done, and a response, in DONE or in RESP of an idle unit, is the one the mathematics gives that request. -/
structure State.Inv (s : State) : Prop where
  idle : s.phase = .idle → ∀ p, s.resp = some p → ∃ r, s.req = some r ∧ p = specResponse (decodeRequest r)
  accepted : ∀ r, s.phase = .accepted r → s.req = some r
  align : ∀ w a b, s.phase = .align w a b → ∃ r, s.req = some r ∧ start (decodeRequest r) = .engine w a b
  iter : ∀ w, s.phase = .iter w → ∃ r a b k e, s.req = some r ∧ start (decodeRequest r) = .engine w a b ∧
    s.eng = e.widen ∧ LoopInv w a b k e
  done : ∀ p, s.phase = .done p → ∃ r, s.req = some r ∧ p = specResponse (decodeRequest r)

/-- A host read would give a response: the unit is idle and RESP holds a value (R80, R84). -/
def State.readable (s : State) : Bool := !s.busy && s.resp.isSome

/-- A safe state: its step does not fault. -/
def State.Safe (s : State) : Prop := ∀ f, step s ≠ .fault f

/-- The host's `R <- operation` of R38: issue one request, wait for its response, read it. -/
def hostCall (r : Request) : List HostAction := [.issue r, .wait, .read]

/-- The host's calls of several requests, one after another (R38). -/
def hostCalls (rs : List Request) : List HostAction := rs.flatMap hostCall

end Sys2Proof.Machine
end

