-- ==== Sys2Proof/Certificates/Slice0/Obligations.lean ====
section
/-!
DEFINITION. The statements for the provers. Each docstring names the rule of spec/ it formalises; what is the model's own
choice says so and names its log entry.
-/

open Sys2Proof Sys2Proof.Machine

/-! ## Encoding -/

/-- Decoding an encoded operation gives it back, for every operation and every operand value (R30, R31, R36). -/
def Obligations.DecodeOfEncode : Prop :=
  ∀ i : Instr, decodePacket (encodePacket i) = i

/-- Every packet is the encoding of the operation it decodes to: no request is illegal and none has two meanings (R36). -/
def Obligations.EncodeOfDecode : Prop :=
  ∀ p : BitVec Config.requestBits, encodePacket (decodePacket p) = p

/-- R30: the three fields of a request packet, their places, and the packet written out as an example. -/
def Obligations.RequestPacketLayout : Prop :=
  (∀ r : Request, r.toPacket.extractLsb' 128 2 = r.op ∧ r.toPacket.extractLsb' 64 64 = r.a ∧
    r.toPacket.extractLsb' 0 64 = r.b) ∧
  (∀ p : BitVec 130, (Request.ofPacket p).toPacket = p) ∧
  Request.ofPacket 0x200000000000000640000000000000003#130 = ⟨0b10, 100, 3⟩

/-- R31: op[1], bit 129 of the packet, selects the function and op[0], bit 128, the width. -/
def Obligations.OpcodeSelectsOperation : Prop :=
  ∀ p : BitVec 130,
    (p.getLsbD 129 = false → p.getLsbD 128 = false →
      decodePacket p = .clz32 (p.extractLsb' 64 64) (p.extractLsb' 0 64)) ∧
    (p.getLsbD 129 = false → p.getLsbD 128 = true →
      decodePacket p = .clz64 (p.extractLsb' 64 64) (p.extractLsb' 0 64)) ∧
    (p.getLsbD 129 = true → p.getLsbD 128 = false →
      decodePacket p = .divu32 (p.extractLsb' 64 64) (p.extractLsb' 0 64)) ∧
    (p.getLsbD 129 = true → p.getLsbD 128 = true →
      decodePacket p = .divu64 (p.extractLsb' 64 64) (p.extractLsb' 0 64))

/-- R34: the three fields of a response packet, their places, the two status codes, and the packet written out there. -/
def Obligations.ResponsePacketLayout : Prop :=
  (∀ p : Response, p.toPacket.extractLsb' 128 1 = (if p.st = .ok then 0 else 1) ∧
    p.toPacket.extractLsb' 64 64 = p.q ∧ p.toPacket.extractLsb' 0 64 = p.r ∧ Response.ofPacket p.toPacket = p) ∧
  (∀ v : BitVec 129, (Response.ofPacket v).toPacket = v) ∧
  (⟨.ok, 33, 1⟩ : Response).toPacket = 0x000000000000000210000000000000001#129

/-- One row of R39: a source line, its request packet and the response packet it gives. -/
def Sys2Proof.Machine.ExampleRuns (l : AsmLine) (request : BitVec 130) (response : BitVec 129) : Prop :=
  (l.assemble []).toOption = some (decodePacket request) ∧ encodePacket (decodePacket request) = request ∧
  ∀ s : State, ∃ t p, exec (decodePacket request) s = .next t ∧ t.resp = some p ∧ p.toPacket = response

/-- R39: the six encoded examples, each assembled, decoded and run. -/
def Obligations.EncodedExamplesRun : Prop :=
  ExampleRuns (.divu32 (.literal 100) (.literal 3))
    0x200000000000000640000000000000003 0x000000000000000210000000000000001 ∧
  ExampleRuns (.divu32 (.literal 0xFFFFFFFF) (.literal 0xFFFFFFFF))
    0x200000000FFFFFFFF00000000FFFFFFFF 0x000000000000000010000000000000000 ∧
  ExampleRuns (.divu64 (.literal 7) (.literal 2))
    0x300000000000000070000000000000002 0x000000000000000030000000000000001 ∧
  ExampleRuns (.divu64 (.literal 0x345CAFEBABE) (.literal 16))
    0x300000345CAFEBABE0000000000000010 0x0000000345CAFEBAB000000000000000E ∧
  ExampleRuns (.divu32 (.literal 5) (.literal 0))
    0x200000000000000050000000000000000 0x100000000FFFFFFFF0000000000000000 ∧
  ExampleRuns (.clz64 (.literal 1))
    0x100000000000000010000000000000000 0x0000000000000003F0000000000000000

/-- The assembler writes only canonical requests, takes a literal of at most W bits as the operand's value and refuses a
wider one, whichever operand it is (30_encoding.md section 5). Which error it names is the model's (log 16): a wide divisor
beside a dividend that is refused too is refused with the dividend's error. -/
def Obligations.AssemblerWritesCanonicalRequests : Prop :=
  (∀ vars l i, AsmLine.assemble vars l = .ok i → i.canonical = true) ∧
  (∀ vars m n, m < 2 ^ 32 → n < 2 ^ 32 →
    AsmLine.assemble vars (.clz32 (.literal m)) = .ok (.clz32 (BitVec.ofNat 64 m) 0) ∧
    AsmLine.assemble vars (.divu32 (.literal m) (.literal n)) =
      .ok (.divu32 (BitVec.ofNat 64 m) (BitVec.ofNat 64 n))) ∧
  (∀ vars m n, m < 2 ^ 64 → n < 2 ^ 64 →
    AsmLine.assemble vars (.clz64 (.literal m)) = .ok (.clz64 (BitVec.ofNat 64 m) 0) ∧
    AsmLine.assemble vars (.divu64 (.literal m) (.literal n)) =
      .ok (.divu64 (BitVec.ofNat 64 m) (BitVec.ofNat 64 n))) ∧
  (∀ vars m b, 2 ^ 32 ≤ m →
    AsmLine.assemble vars (.clz32 (.literal m)) = .error .literalTooWide ∧
    AsmLine.assemble vars (.divu32 (.literal m) b) = .error .literalTooWide) ∧
  (∀ vars m b, 2 ^ 64 ≤ m →
    AsmLine.assemble vars (.clz64 (.literal m)) = .error .literalTooWide ∧
    AsmLine.assemble vars (.divu64 (.literal m) b) = .error .literalTooWide) ∧
  (∀ vars a n, 2 ^ 32 ≤ n → ∃ e, AsmLine.assemble vars (.divu32 a (.literal n)) = .error e) ∧
  (∀ vars a n, 2 ^ 64 ≤ n → ∃ e, AsmLine.assemble vars (.divu64 a (.literal n)) = .error e)

/-! ## The leading-zero count -/

/-- R41: the recursion, its depth, and both closed forms: by the bit length and by the index of the highest set bit. -/
def Obligations.Clz32RecursionAndClosedForm : Prop :=
  clz32 0 = 32 ∧
  (∀ x : Word32, x ≠ 0 → 0 < clz32 (x >>> 1) ∧ clz32 x = clz32 (x >>> 1) - 1) ∧
  (∀ x : Word32, x >>> 32 = 0) ∧
  (∀ x : Word32, clz32 x = 32 - bitLen x.toNat) ∧
  (∀ (x : Word32) (p : Nat), x.getLsbD p = true → (∀ k, p < k → x.getLsbD k = false) → clz32 x = 31 - p)

/-- R42: the composition from the two halves, and what it gives: 64 for zero, and the closed form for every word. -/
def Obligations.Clz64CompositionAndClosedForm : Prop :=
  (∀ x : Word64, x.extractLsb' 32 32 ≠ 0 → clz64 x = clz32 (x.extractLsb' 32 32)) ∧
  (∀ x : Word64, x.extractLsb' 32 32 = 0 → clz64 x = 32 + clz32 (x.extractLsb' 0 32)) ∧
  clz64 0 = 64 ∧
  (∀ x : Word64, clz64 x = 64 - bitLen x.toNat) ∧
  (∀ x : Word32, clz .w32 x = clz32 x) ∧ (∀ x : Word64, clz .w64 x = clz64 x)

/-- R40: the count is from 0 to W, it is W only for zero, and it counts exactly the zero bits above the highest set bit. -/
def Obligations.CountIsLeadingZeros : Prop :=
  ∀ (w : Width) (x : BitVec w.bits),
    clz w x ≤ w.bits ∧ (clz w x = w.bits ↔ x = 0) ∧
    (∀ k, w.bits - clz w x ≤ k → x.getLsbD k = false) ∧
    (x ≠ 0 → x.getLsbD (w.bits - clz w x - 1) = true)

/-- R45: the count of zero, of one and of the all-ones word, at both widths. -/
def Obligations.CountAnchors : Prop :=
  ∀ w : Width, clz w 0 = w.bits ∧ clz w 1 = w.bits - 1 ∧ clz w (BitVec.allOnes w.bits) = 0

/-- R47: the count of a value that fits in 32 bits, across widths. -/
def Obligations.CountAcrossWidths : Prop :=
  ∀ x : Word32, clz64 (x.setWidth 64) = 32 + clz32 x

/-- R43: CLZ32 whole: its encoding, its source line, and what it does in every state: the count of bits 31 to 0 of REQ.a in
RESP.q, zero in RESP.r, Ok in RESP.st, nothing else changed but that the unit is idle again; and its corner cases. -/
def Obligations.Clz32Operation : Prop :=
  (∀ a b, decodeRequest ⟨0b00, a, b⟩ = .clz32 a b) ∧
  (∀ vars n, n < 2 ^ 32 → AsmLine.assemble vars (.clz32 (.literal n)) = .ok (.clz32 (BitVec.ofNat 64 n) 0)) ∧
  (∀ a b (s : State), exec (.clz32 a b) s = .next
    { s with
      resp := some ⟨.ok, BitVec.ofNat 64 (clz32 (a.extractLsb' 0 32)), 0⟩
      phase := .idle }) ∧
  (∀ a : Word64, clz32 (a.extractLsb' 0 32) = 32 - bitLen (a.toNat % 2 ^ 32)) ∧
  (∀ a : Word64, a.getLsbD 31 = true → clz32 (a.extractLsb' 0 32) = 0) ∧
  clz32 0 = 32 ∧ clz32 1 = 31 ∧ clz32 0x00010000 = 15

/-- R44: CLZ64 whole: its encoding, its source line, what it does in every state, and its corner cases. -/
def Obligations.Clz64Operation : Prop :=
  (∀ a b, decodeRequest ⟨0b01, a, b⟩ = .clz64 a b) ∧
  (∀ vars n, n < 2 ^ 64 → AsmLine.assemble vars (.clz64 (.literal n)) = .ok (.clz64 (BitVec.ofNat 64 n) 0)) ∧
  (∀ a b (s : State), exec (.clz64 a b) s = .next
    { s with
      resp := some ⟨.ok, BitVec.ofNat 64 (clz64 a), 0⟩
      phase := .idle }) ∧
  (∀ a : Word64, clz64 a = 64 - bitLen a.toNat) ∧
  (∀ a : Word64, a.getLsbD 63 = true → clz64 a = 0) ∧
  clz64 0 = 64 ∧ clz64 1 = 63 ∧ clz64 0x00000000FFFFFFFF = 32 ∧ clz64 0x0000000100000000 = 31 ∧
  clz64 0x00000345CAFEBABE = 22

/-! ## The divide -/

/-- R51, R53, R54: the edge policy, its order and the result of each case; that cases 2, 3 and 4 give the values of R61; and a
zero dividend. The sentinel of case 1 is in digits at both widths. -/
def Obligations.DivideEdgePolicy : Prop :=
  (∀ (w : Width) (a b : BitVec w.bits),
    (b = 0 → divide w a b = (.divisionByZero, BitVec.allOnes w.bits, 0)) ∧
    (b ≠ 0 → b = a → divide w a b = (.ok, 1, 0)) ∧
    (b ≠ 0 → b ≠ a → a < b → divide w a b = (.ok, 0, a)) ∧
    (b ≠ 0 → b ≠ a → ¬ a < b → divide w a b = (.ok, engine w a b))) ∧
  (∀ a : Word32, (divide .w32 a 0).2.1 = 0xFFFFFFFF#32) ∧
  (∀ a : Word64, (divide .w64 a 0).2.1 = 0xFFFFFFFFFFFFFFFF#64) ∧
  (∀ (w : Width) (b : BitVec w.bits), b ≠ 0 → divide w 0 b = (.ok, 0, 0)) ∧
  (∀ (w : Width) (a b : BitVec w.bits), b ≠ 0 → (divide w a b).2.1.toNat = a.toNat / b.toNat ∧
    (divide w a b).2.2.toNat = a.toNat % b.toNat)

/-- R61: for every dividend and every divisor but zero, at both widths, the divide gives floor and mod. -/
def Obligations.DivideIsFloorAndMod : Prop :=
  ∀ (w : Width) (a b : BitVec w.bits), b ≠ 0 →
    ∃ q r, divide w a b = (.ok, q, r) ∧ q.toNat = a.toNat / b.toNat ∧ r.toNat = a.toNat % b.toNat

/-- R55: the edge policy enters the engine, on its own operands, exactly with `a > b > 0`, whether the divide runs arrow by
arrow or whole; every other divide is done without it. Run with `a = b > 0` the engine would still give quotient 1 and
remainder 0, in one iteration at shift 0; it is exact there and where it is entered. -/
def Obligations.EngineEntry : Prop :=
  ∀ (w : Width) (a b : BitVec w.bits),
    (startDivide w a b = .engine w a b ↔ 0 < b ∧ b < a) ∧
    (¬ (0 < b ∧ b < a) → ∃ p, startDivide w a b = .direct p) ∧
    (generalCase a b = true ↔ 0 < b ∧ b < a) ∧
    (0 < b → b < a → divide w a b = (.ok, engine w a b)) ∧
    (0 < b → a = b → engine w a b = (1, 0) ∧ alignShift w a b = 0 ∧ iterationCount w a b = 1) ∧
    (0 < b → b ≤ a → (engine w a b).1.toNat = a.toNat / b.toNat ∧ (engine w a b).2.toNat = a.toNat % b.toNat)

/-- R56: the alignment distance is the difference of the counts, it is from 0 to W - 1, and shifting the divisor left by it
brings its highest set bit to that of the dividend. -/
def Obligations.AlignmentDistance : Prop :=
  ∀ (w : Width) (a b : BitVec w.bits), 0 < b → b ≤ a →
    clz w a ≤ clz w b ∧ alignShift w a b = clz w b - clz w a ∧ alignShift w a b ≤ w.bits - 1 ∧
    clz w (b <<< alignShift w a b) = clz w a

/-- R57: what the engine loads; no set bit of the divisor is shifted out and BW has the one bit SHIFT. -/
def Obligations.EngineLoad : Prop :=
  ∀ (w : Width) (a b : BitVec w.bits), 0 < b → b ≤ a →
    (load w a b).shift.val = alignShift w a b ∧
    (load w a b).dvs.toNat = b.toNat * 2 ^ alignShift w a b ∧
    (load w a b).bw.toNat = 2 ^ alignShift w a b ∧
    (load w a b).rem = a ∧ (load w a b).qacc = 0

/-- R58: one iteration on the working registers; inside a divide the subtraction never wraps and the OR is an addition. -/
def Obligations.EngineIteration : Prop :=
  (∀ (w : Width) (e : Regs w.bits),
    (e.dvs ≤ e.rem → e.iterate.rem = e.rem - e.dvs ∧ e.iterate.rem.toNat = e.rem.toNat - e.dvs.toNat ∧
      e.iterate.qacc = e.qacc ||| e.bw) ∧
    (¬ e.dvs ≤ e.rem → e.iterate.rem = e.rem ∧ e.iterate.qacc = e.qacc) ∧
    e.iterate.dvs.toNat = e.dvs.toNat / 2 ∧ e.iterate.bw.toNat = e.bw.toNat / 2 ∧ e.iterate.shift = e.shift) ∧
  (∀ (w : Width) (a b : BitVec w.bits) (k : Nat) (e : Regs w.bits), LoopInv w a b k e → e.dvs ≤ e.rem →
    e.qacc &&& e.bw = 0 ∧ e.iterate.qacc.toNat = e.qacc.toNat + e.bw.toNat)

/-- The loop invariant that the derivation under R61 names holds after loading, and an iteration that does not end the loop
keeps it, with BW's bit one place lower; one that ends it leaves quotient and remainder. -/
def Obligations.LoopInvariantKept : Prop :=
  (∀ (w : Width) (a b : BitVec w.bits), 0 < b → b ≤ a → LoopInv w a b (alignShift w a b) (load w a b)) ∧
  (∀ (w : Width) (a b : BitVec w.bits) (k : Nat) (e : Regs w.bits), LoopInv w a b k e →
    (e.iterate.finished = false → 0 < k ∧ LoopInv w a b (k - 1) e.iterate) ∧
    (e.iterate.finished = true → e.iterate.qacc.toNat = a.toNat / b.toNat ∧ e.iterate.rem.toNat = a.toNat % b.toNat))

/-- R59, R60 and R69: the loop is entered with neither BW nor REM zero, runs `iterate` once and then again until one of them is,
from 1 to SHIFT + 1 times and so at most W times; what is then in QACC and REM is the result; the spec's example of an early
exit. -/
def Obligations.LoopControl : Prop :=
  (∀ (w : Width) (a b : BitVec w.bits), 0 < b → b ≤ a →
    (load w a b).bw ≠ 0 ∧ (load w a b).rem ≠ 0 ∧
    1 ≤ iterationCount w a b ∧ iterationCount w a b ≤ alignShift w a b + 1 ∧ alignShift w a b + 1 ≤ w.bits ∧
    engineRun w a b = Regs.iterate^[iterationCount w a b] (load w a b) ∧
    ((engineRun w a b).bw = 0 ∨ (engineRun w a b).rem = 0) ∧
    ∀ k, 0 < k → k < iterationCount w a b →
      (Regs.iterate^[k] (load w a b)).bw ≠ 0 ∧ (Regs.iterate^[k] (load w a b)).rem ≠ 0) ∧
  (∀ (w : Width) (a b : BitVec w.bits), 0 < b → b < a →
    divide w a b = (.ok, (engineRun w a b).qacc, (engineRun w a b).rem)) ∧
  alignShift .w32 0x80000000#32 1#32 = 31 ∧ iterationCount .w32 0x80000000#32 1#32 = 1

/-- R64: for operands that fit in 32 bits and a divisor other than zero the two widths agree; for divisor zero the statuses
and remainders agree and the quotients are each width's sentinel. -/
def Obligations.CrossWidthConsistency : Prop :=
  (∀ a b : Word32, b ≠ 0 → ∃ q r, divide .w32 a b = (.ok, q, r) ∧
    divide .w64 (a.setWidth 64) (b.setWidth 64) = (.ok, q.setWidth 64, r.setWidth 64)) ∧
  (∀ a : Word32, divide .w32 a 0 = (.divisionByZero, 0xFFFFFFFF#32, 0) ∧
    divide .w64 (a.setWidth 64) 0 = (.divisionByZero, 0xFFFFFFFFFFFFFFFF#64, 0))

/-- R65: the law of the divide in the natural numbers, its bounds, and where the largest quotient occurs. -/
def Obligations.DivideLawAndBounds : Prop :=
  ∀ (w : Width) (a b : BitVec w.bits),
    (b ≠ 0 → (divide w a b).2.1.toNat * b.toNat + (divide w a b).2.2.toNat = a.toNat ∧
      (divide w a b).2.2 < b ∧ (divide w a b).2.1 ≤ a) ∧
    ((divide w a b).2.1 = BitVec.allOnes w.bits ↔ b = 0 ∨ (a = BitVec.allOnes w.bits ∧ b = 1))

/-- R62: DIVU32 whole: its encoding, its source line, and what it does in every state: the response of `div_32` on bits 31 to
0 of the fields, zero-extended, by the mathematics of R52 and R61; nothing else of the state changes but that the unit is
idle again, and, where the engine runs, the working registers (R15). -/
def Obligations.Divu32Operation : Prop :=
  (∀ a b, decodeRequest ⟨0b10, a, b⟩ = .divu32 a b) ∧
  (∀ vars m n, m < 2 ^ 32 → n < 2 ^ 32 → AsmLine.assemble vars (.divu32 (.literal m) (.literal n)) =
    .ok (.divu32 (BitVec.ofNat 64 m) (BitVec.ofNat 64 n))) ∧
  (∀ (a b : Word64) (s : State), ∃ eng p,
    exec (.divu32 a b) s = .next { s with eng := eng, resp := some p, phase := .idle } ∧
    p = ⟨(divide .w32 (a.extractLsb' 0 32) (b.extractLsb' 0 32)).1,
      (divide .w32 (a.extractLsb' 0 32) (b.extractLsb' 0 32)).2.1.setWidth 64,
      (divide .w32 (a.extractLsb' 0 32) (b.extractLsb' 0 32)).2.2.setWidth 64⟩ ∧
    (b.toNat % 2 ^ 32 = 0 → p = ⟨.divisionByZero, 0xFFFFFFFF, 0⟩) ∧
    (b.toNat % 2 ^ 32 ≠ 0 → p = ⟨.ok, BitVec.ofNat 64 ((a.toNat % 2 ^ 32) / (b.toNat % 2 ^ 32)),
      BitVec.ofNat 64 ((a.toNat % 2 ^ 32) % (b.toNat % 2 ^ 32))⟩) ∧
    (b.toNat % 2 ^ 32 = 0 ∨ a.toNat % 2 ^ 32 ≤ b.toNat % 2 ^ 32 → eng = s.eng))

/-- R63: DIVU64 whole: its encoding, its source line, and what it does in every state: divisor zero first, at W = 64, then
the 32-bit fast path, then `div_64`; all by the mathematics of R52 and R61; nothing else of the state changes but that the
unit is idle again, and, where the engine runs, the working registers (R15). -/
def Obligations.Divu64Operation : Prop :=
  (∀ a b, decodeRequest ⟨0b11, a, b⟩ = .divu64 a b) ∧
  (∀ vars m n, m < 2 ^ 64 → n < 2 ^ 64 → AsmLine.assemble vars (.divu64 (.literal m) (.literal n)) =
    .ok (.divu64 (BitVec.ofNat 64 m) (BitVec.ofNat 64 n))) ∧
  (∀ (a b : Word64) (s : State), ∃ eng p,
    exec (.divu64 a b) s = .next { s with eng := eng, resp := some p, phase := .idle } ∧
    (b = 0 → p = ⟨.divisionByZero, 0xFFFFFFFFFFFFFFFF, 0⟩) ∧
    (b ≠ 0 → a.extractLsb' 32 32 = 0 → b.extractLsb' 32 32 = 0 →
      p = ⟨(divide .w32 (a.extractLsb' 0 32) (b.extractLsb' 0 32)).1,
        (divide .w32 (a.extractLsb' 0 32) (b.extractLsb' 0 32)).2.1.setWidth 64,
        (divide .w32 (a.extractLsb' 0 32) (b.extractLsb' 0 32)).2.2.setWidth 64⟩) ∧
    (b ≠ 0 → a.extractLsb' 32 32 ≠ 0 ∨ b.extractLsb' 32 32 ≠ 0 →
      p = ⟨(divide .w64 a b).1, (divide .w64 a b).2.1, (divide .w64 a b).2.2⟩) ∧
    (b ≠ 0 → p = ⟨.ok, BitVec.ofNat 64 (a.toNat / b.toNat), BitVec.ofNat 64 (a.toNat % b.toNat)⟩) ∧
    (b = 0 ∨ a ≤ b → eng = s.eng)) ∧
  alignShift .w64 0xFFFFFFFFFFFFFFFF#64 1#64 = 63 ∧ iterationCount .w64 0xFFFFFFFFFFFFFFFF#64 1#64 = 64

/-! ## Every operation -/

/-- Every operation, in every state, completes with the response the mathematics gives its request, and leaves REQ and the
host's side as they were: "Any operation may follow any other" and gets "the response of its own request" (R83). -/
def Obligations.ExecMeetsSpec : Prop :=
  ∀ (i : Instr) (s : State), ∃ t, exec i s = .next t ∧ t.resp = some (specResponse i) ∧ t.phase = .idle ∧
    t.req = s.req ∧ t.host = s.host ∧ t.taken = s.taken

/-- R13, R52 and R71: the status is DivisionByZero for a divide whose divisor is zero, with the sentinel of its width, and Ok
for everything else; the bit is 1 and 0; and the divide by zero ends in a next state, for every dividend. -/
def Obligations.StatusIsDivisionByZero : Prop :=
  (Status.ok.bit = 0 ∧ Status.divisionByZero.bit = 1) ∧
  ∀ (i : Instr) (s : State), ∃ t p, exec i s = .next t ∧ t.resp = some p ∧
    (p.st = .divisionByZero ↔
      (∃ a b, i = .divu32 a b ∧ b.extractLsb' 0 32 = 0) ∨ (∃ a, i = .divu64 a 0)) ∧
    (∀ a b, i = .divu32 a b → b.extractLsb' 0 32 = 0 → p.q = 0x00000000FFFFFFFF ∧ p.r = 0) ∧
    (∀ a, i = .divu64 a 0 → p.q = 0xFFFFFFFFFFFFFFFF ∧ p.r = 0)

/-- R35: the upper halves of q and r are zero after a 32-bit operation, and q[63:7] is zero after a count. -/
def Obligations.ResultsAreZeroExtended : Prop :=
  ∀ (i : Instr) (s : State), ∃ t p, exec i s = .next t ∧ t.resp = some p ∧
    (∀ a b, i = .clz32 a b ∨ i = .divu32 a b → p.q.extractLsb' 32 32 = 0 ∧ p.r.extractLsb' 32 32 = 0) ∧
    (∀ a b, i = .clz32 a b → p.q.toNat ≤ 32 ∧ p.q.extractLsb' 7 57 = 0 ∧ p.r = 0) ∧
    (∀ a b, i = .clz64 a b → p.q.toNat ≤ 64 ∧ p.q.extractLsb' 7 57 = 0 ∧ p.r = 0)

/-- R33: `operand_W`, and that a 32-bit operation does not read bits 63 to 32 of either field; and a count reads no field b. -/
def Obligations.UnreadBitsHaveNoEffect : Prop :=
  (∀ v : Word64, operand .w32 v = v.extractLsb' 0 32 ∧ operand .w64 v = v) ∧
  ∀ (a a' b b' : Word64) (s : State),
    exec (.clz64 a b) s = exec (.clz64 a b') s ∧
    (a.extractLsb' 0 32 = a'.extractLsb' 0 32 → exec (.clz32 a b) s = exec (.clz32 a' b') s) ∧
    (a.extractLsb' 0 32 = a'.extractLsb' 0 32 → b.extractLsb' 0 32 = b'.extractLsb' 0 32 →
      exec (.divu32 a b) s = exec (.divu32 a' b') s)

/-- R10 and R87: the response is a function of the request alone. Whatever RESP, the working registers and the host's lists held,
the same request gets the same response, run whole or arrow by arrow. -/
def Obligations.ResponseDependsOnRequestAlone : Prop :=
  (∀ (i : Instr) (s s' : State), ∃ t t', exec i s = .next t ∧ exec i s' = .next t' ∧ t.resp = t'.resp) ∧
  (∀ (r : Request) (s s' : State) (n : Nat), s.phase = .accepted r → s'.phase = .accepted r →
    (State.tick^[n] s).phase = (State.tick^[n] s').phase ∧
    ((State.tick^[n] s).phase = .idle → (State.tick^[n] s).resp = (State.tick^[n] s').resp))

/-! ## The machine -/

/-- A step runs the decoded request: in a state that has accepted `r`, the step is `exec` of what `r` decodes to, whether the
host has nothing left to do, waits, or wants to issue another request. -/
def Obligations.StepRunsAcceptedRequest : Prop :=
  ∀ (s : State) (r : Request), s.phase = .accepted r →
    (s.host = [] → step s = exec (decodeRequest r) s) ∧
    (∀ rest, s.host = .wait :: rest → step s = exec (decodeRequest r) { s with host := rest }) ∧
    (∀ r' rest, s.host = .issue r' :: rest → step s = exec (decodeRequest r) s)

/-- A placed word is what the next step runs, in every state, and nothing else of the state is touched (log 10, log 11). -/
def Obligations.PlacedWordRuns : Prop :=
  ∀ (s : State) (nbits w : Nat) (i : Instr), decodeTableWord nbits w = some i →
    step (s.withFetchWord nbits w) =
      exec i { s with req := some (encodeRequest i), phase := .accepted (encodeRequest i) }

/-- R11: the host writes REQ to issue a request and an idle unit accepts it; only the host's issue and reset ever change REQ;
and once the request is accepted, what REQ then holds has no effect on what the unit goes on to do. -/
def Obligations.RequestIsReadOnce : Prop :=
  (∀ (s : State) (r : Request) (rest : List HostAction), s.phase = .idle → s.host = .issue r :: rest →
    step s = .next { s with req := some r, phase := .accepted r, host := rest }) ∧
  (∀ s t : State, step s = .next t → (∀ r rest, s.host ≠ .issue r :: rest) → (∀ rest, s.host ≠ .reset :: rest) →
    t.req = s.req) ∧
  (∀ (s : State) (q : Option Request), s.phase ≠ .idle → s.host = [] →
    ∃ t, step s = .next t ∧ step { s with req := q } = .next { t with req := q })

/-- A busy unit does not take a request: the host's issue waits, still first in its list, and the unit goes on as if alone.
The model's choice (log 6). -/
def Obligations.IssueWaitsWhileBusy : Prop :=
  ∀ (s : State) (r : Request) (rest : List HostAction), s.phase ≠ .idle → s.host = .issue r :: rest →
    ∃ t, step s = .next t ∧ t.req = s.req ∧ t.host = s.host ∧ step { s with host := [] } = .next { t with host := [] }

/-- A host read: the response, with nothing of the unit changed, where the unit is idle and RESP holds a value; a fault before
the first response (R80) and a fault while an operation is in flight (R84). -/
def Obligations.HostReadsResponse : Prop :=
  ∀ (s : State) (rest : List HostAction), s.host = .read :: rest →
    (∀ p, s.phase = .idle → s.resp = some p → step s = .next { s with host := rest, taken := s.taken ++ [p] }) ∧
    (s.phase = .idle → s.resp = none → step s = .fault .respUnwritten) ∧
    (s.phase ≠ .idle → step s = .fault .respStale)

/-- R80 and R17: reset, whatever the unit was doing, leaves it idle, with no request, no response and no operation in flight;
and a read that comes next faults. What the working registers hold is the model's (log 3) and is not stated. -/
def Obligations.ResetAbandonsOperation : Prop :=
  (State.reset.req = none ∧ State.reset.resp = none ∧ State.reset.phase = .idle) ∧
  ∀ (s : State) (rest : List HostAction), s.host = .reset :: rest →
    ∃ t, step s = .next t ∧ t.req = none ∧ t.resp = none ∧ t.phase = .idle ∧ t.host = rest ∧ t.taken = s.taken ∧
      (∀ rest', rest = .read :: rest' → step t = .fault .respUnwritten) ∧
      (rest = [] → step t = .next t)

/-- R81 and R82: right after reset the unit is idle and takes the first request at once, and its response is the one the
mathematics gives. -/
def Obligations.FirstRequestAfterReset : Prop :=
  ∀ r : Request, ∃ t, core.run 3 { State.reset with host := hostCall r } = .next t ∧
    t.resp = some (specResponse (decodeRequest r)) ∧ t.taken = [specResponse (decodeRequest r)] ∧ t.phase = .idle

/-- R70: no operation ends in a fault or a refusal, and a step faults exactly when the host reads RESP where it may not. -/
def Obligations.OnlyMisreadsFault : Prop :=
  (∀ (i : Instr) (s : State), (∀ f, exec i s ≠ .fault f) ∧ (∀ r, exec i s ≠ .refused r)) ∧
  (∀ (s : State) r, step s ≠ .refused r) ∧
  (∀ s : State, s.Safe ↔ ((∃ rest, s.host = .read :: rest) → s.readable = true))

/-- The response appears whole or not at all (20_memory.md section 4). A step that leaves an operation in flight leaves RESP
as it was. A step, no reset, that changes RESP or ends an operation writes RESP whole: the response of DONE, or the response
the mathematics gives the accepted request. A read does not change RESP. While an operation is in flight a read faults:
70_reset_and_hazards.md section 3, with the window as the model reads it (log 7). -/
def Obligations.ResponseAppearsWhole : Prop :=
  (∀ s t : State, step s = .next t → t.phase ≠ .idle → t.resp = s.resp) ∧
  (∀ s t : State, step s = .next t → (∀ rest, s.host ≠ .reset :: rest) →
    (t.resp ≠ s.resp ∨ (s.phase ≠ .idle ∧ t.phase = .idle)) →
    ∃ p, t.resp = some p ∧
      (s.phase = .done p ∨ ∃ r, s.phase = .accepted r ∧ p = specResponse (decodeRequest r))) ∧
  (∀ (s : State) (rest : List HostAction), s.phase ≠ .idle → s.host = .read :: rest → step s = .fault .respStale) ∧
  (∀ (s t : State) (rest : List HostAction), s.host = .read :: rest → step s = .next t → t.resp = s.resp)

/-- R15: the working registers change only in ALIGN, in ITER, in a whole divide that reaches the engine, and by reset. -/
def Obligations.WorkingRegistersChangeOnlyInEngine : Prop :=
  ∀ s t : State, step s = .next t → t.eng ≠ s.eng → (∀ rest, s.host ≠ .reset :: rest) →
    (∃ w a b, s.phase = .align w a b) ∨ (∃ w, s.phase = .iter w) ∨
    (∃ r w a b, s.phase = .accepted r ∧ start (decodeRequest r) = .engine w a b)

/-- The arrows of R68, one by one. A divide goes to ALIGN exactly with `a > b > 0`, with the operands `operand_W` reads from
its own request: DIVU32 at W = 32; DIVU64 at W = 64, or at W = 32 on the low halves where both high halves are zero (R63). A
count and every other divide go to DONE with the response the mathematics gives. ALIGN loads (R57); ITER iterates (R58) and stays while neither BW nor REM is zero (R59); DONE writes RESP
whole. The host's `tick` is one arrow (log 8). -/
def Obligations.PhaseArrows : Prop :=
  (∀ a b : Word64,
    (∃ p, start (.clz32 a b) = .direct p) ∧ (∃ p, start (.clz64 a b) = .direct p) ∧
    (start (.divu32 a b) = .engine .w32 (operand .w32 a) (operand .w32 b) ↔
      0 < operand .w32 b ∧ operand .w32 b < operand .w32 a) ∧
    (¬ (0 < operand .w32 b ∧ operand .w32 b < operand .w32 a) → ∃ p, start (.divu32 a b) = .direct p) ∧
    (start (.divu64 a b) = .engine .w64 (operand .w64 a) (operand .w64 b) ↔
      (a.extractLsb' 32 32 ≠ 0 ∨ b.extractLsb' 32 32 ≠ 0) ∧ 0 < b ∧ b < a) ∧
    (start (.divu64 a b) = .engine .w32 (a.extractLsb' 0 32) (b.extractLsb' 0 32) ↔
      (a.extractLsb' 32 32 = 0 ∧ b.extractLsb' 32 32 = 0) ∧ 0 < b ∧ b < a) ∧
    (¬ (0 < b ∧ b < a) → ∃ p, start (.divu64 a b) = .direct p)) ∧
  ∀ s : State,
    (∀ r, s.phase = .accepted r →
      (∀ w a b, start (decodeRequest r) = .engine w a b → s.tick = { s with phase := .align w a b } ∧ 0 < b ∧ b < a) ∧
      (∀ p, start (decodeRequest r) = .direct p → s.tick = { s with phase := .done p } ∧
        p = specResponse (decodeRequest r))) ∧
    (∀ w a b, s.phase = .align w a b → s.tick = { s with eng := (load w a b).widen, phase := .iter w }) ∧
    (∀ w (e : Regs w.bits), s.phase = .iter w → s.eng = e.widen →
      (e.iterate.bw ≠ 0 → e.iterate.rem ≠ 0 → s.tick = { s with eng := e.iterate.widen }) ∧
      (e.iterate.bw = 0 ∨ e.iterate.rem = 0 → s.tick =
        { s with
          eng := e.iterate.widen
          phase := .done ⟨.ok, e.iterate.qacc.setWidth 64, e.iterate.rem.setWidth 64⟩ })) ∧
    (∀ p, s.phase = .done p → s.tick = { s with resp := some p, phase := .idle }) ∧
    (s.phase = .idle → s.tick = s) ∧
    (∀ rest, s.host = .tick :: rest → step s = .next { s with host := rest : State }.tick)

/-- R68: run arrow by arrow, an accepted request ends in exactly the state `exec` gives, after two arrows where the engine
does not run and after at most W + 3 where it runs at width W; and until the last arrow RESP holds what it held and the unit
is busy. R68 promises the same response only: that the working registers are the same too is the model's choice (log 5). -/
def Obligations.TicksRefineExec : Prop :=
  ∀ (s : State) (r : Request), s.phase = .accepted r →
    ∃ t n, exec (decodeRequest r) s = .next t ∧ State.tick^[n] s = t ∧ t.phase = .idle ∧
      (∀ p, start (decodeRequest r) = .direct p → n = 2) ∧
      (∀ w a b, start (decodeRequest r) = .engine w a b → n ≤ w.bits + 3) ∧
      ∀ k, k < n → (State.tick^[k] s).phase ≠ .idle ∧ (State.tick^[k] s).resp = s.resp

/-- R86: the unit never hangs: from every state, reachable or not, it is idle after at most 67 steps alone; and where it was
busy, in a state that has the invariant, RESP then holds the response of its request. -/
def Obligations.UnitNeverHangs : Prop :=
  ∀ s : State, s.host = [] → ∃ (n : Nat) (t : State), n ≤ 67 ∧ core.run n s = .next t ∧ t.phase = .idle ∧
    (s.Inv → s.phase ≠ .idle → ∃ r, s.req = some r ∧ t.resp = some (specResponse (decodeRequest r)))

/-- The invariant of the machine holds right after reset. -/
def Obligations.InvAtReset : Prop :=
  State.reset.Inv

/-- The invariant of the machine is kept by every step, from every state that has it: what is in flight is REQ's operation, an
ITER phase holds it half done, and a response is the one the mathematics gives REQ's request. -/
def Obligations.StepKeepsInv : Prop :=
  ∀ s t : State, s.Inv → step s = .next t → t.Inv

/-- R25: one instance answers the host's calls in the order of the requests, one response for each, each the one the
mathematics gives; from every idle state, for every list of requests. That a call is an issue, a wait and a read, each one
step, and that what the host has read is a list of the state, is the model's form of the host (log 8). -/
def Obligations.ResponsesInRequestOrder : Prop :=
  ∀ (s : State) (rs : List Request), s.phase = .idle → s.host = hostCalls rs →
    ∃ t, core.run (3 * rs.length) s = .next t ∧ t.phase = .idle ∧ t.host = [] ∧
      t.taken = s.taken ++ rs.map (fun r => specResponse (decodeRequest r))

/-- R77: instances share no state: a step of one is the step of its own state and leaves every other as it was, and steps of
two of them commute. -/
def Obligations.InstancesAreIndependent : Prop :=
  (∀ (n : Nat) (p p' : Platform n) (k : Fin n), p.stepUnit k = .next p' →
    step p[k] = .next p'[k] ∧ ∀ j : Fin n, j ≠ k → p'[j] = p[j]) ∧
  (∀ (n : Nat) (p pj pk : Platform n) (j k : Fin n), j ≠ k → p.stepUnit j = .next pj → p.stepUnit k = .next pk →
    ∃ q, pj.stepUnit k = .next q ∧ pk.stepUnit j = .next q)
end

