-- ==== Sys2Proof/Laws/Count.lean ====
section
/-!
SUPPORT. The bit length, in the one form the rest uses: how it compares with a number is how the value compares with a power.
-/

namespace Sys2Proof.Laws

open Sys2Proof.Machine

theorem bitLen_le {n k : Nat} : bitLen n ≤ k ↔ n < 2 ^ k := by
  unfold bitLen
  split
  · subst n; simp
  · rename_i h
    rw [Nat.add_one_le_iff, Nat.log2_lt h]

/-- The bit length is the only number that compares so with every power. -/
theorem bitLen_eq {n m : Nat} (h : ∀ k, n < 2 ^ k ↔ m ≤ k) : bitLen n = m :=
  eq_of_forall_ge_iff fun k => bitLen_le.trans (h k)

theorem bitLen_pos {n : Nat} (h : n ≠ 0) : 0 < bitLen n := by simp [bitLen, h]

theorem lt_pow_bitLen (n : Nat) : n < 2 ^ bitLen n := bitLen_le.1 le_rfl

theorem pow_bitLen_le {n : Nat} (h : n ≠ 0) : 2 ^ (bitLen n - 1) ≤ n := by
  by_contra hc
  have := bitLen_le.2 (Nat.lt_of_not_le hc)
  have := bitLen_pos h
  omega

theorem bitLen_mono {m n : Nat} (h : m ≤ n) : bitLen m ≤ bitLen n :=
  bitLen_le.2 (lt_of_le_of_lt h (lt_pow_bitLen n))

end Sys2Proof.Laws
end

