-- ==== Sys2Proof/Laws/State.lean ====
section
/-!
SUPPORT. One lemma for each field of State after each update of it: respond, accept, resetUnit, placeRequest, afterEngine.
-/

namespace Sys2Proof.Laws

open Sys2Proof.Machine

variable (s : State) (p : Response) (r : Request)

@[simp] theorem respond_req : (s.respond p).req = s.req := rfl
@[simp] theorem respond_resp : (s.respond p).resp = some p := rfl
@[simp] theorem respond_phase : (s.respond p).phase = .idle := rfl
@[simp] theorem respond_eng : (s.respond p).eng = s.eng := rfl
@[simp] theorem respond_host : (s.respond p).host = s.host := rfl
@[simp] theorem respond_taken : (s.respond p).taken = s.taken := rfl

@[simp] theorem accept_req : (s.accept r).req = some r := rfl
@[simp] theorem accept_resp : (s.accept r).resp = s.resp := rfl
@[simp] theorem accept_phase : (s.accept r).phase = .accepted r := rfl
@[simp] theorem accept_eng : (s.accept r).eng = s.eng := rfl
@[simp] theorem accept_host : (s.accept r).host = s.host := rfl
@[simp] theorem accept_taken : (s.accept r).taken = s.taken := rfl

@[simp] theorem resetUnit_req : s.resetUnit.req = none := rfl
@[simp] theorem resetUnit_resp : s.resetUnit.resp = none := rfl
@[simp] theorem resetUnit_phase : s.resetUnit.phase = .idle := rfl
@[simp] theorem resetUnit_eng : s.resetUnit.eng = State.reset.eng := rfl
@[simp] theorem resetUnit_host : s.resetUnit.host = s.host := rfl
@[simp] theorem resetUnit_taken : s.resetUnit.taken = s.taken := rfl

@[simp] theorem placeRequest_req : (s.placeRequest r).req = some r := rfl
@[simp] theorem placeRequest_resp : (s.placeRequest r).resp = s.resp := rfl
@[simp] theorem placeRequest_phase : (s.placeRequest r).phase = .accepted r := rfl
@[simp] theorem placeRequest_eng : (s.placeRequest r).eng = s.eng := rfl
@[simp] theorem placeRequest_host : (s.placeRequest r).host = .wait :: s.host := rfl
@[simp] theorem placeRequest_taken : (s.placeRequest r).taken = s.taken := rfl

section AfterEngine

variable (w : Width) (a b : BitVec w.bits)

/-- Which working registers a divide leaves: those of the engine's run where it ran. -/
theorem afterEngine_eng :
    (s.afterEngine w a b).eng = if generalCase a b then (engineRun w a b).widen else s.eng := by
  unfold State.afterEngine; split <;> rfl

@[simp] theorem afterEngine_req : (s.afterEngine w a b).req = s.req := by
  unfold State.afterEngine; split <;> rfl
@[simp] theorem afterEngine_resp : (s.afterEngine w a b).resp = s.resp := by
  unfold State.afterEngine; split <;> rfl
@[simp] theorem afterEngine_phase : (s.afterEngine w a b).phase = s.phase := by
  unfold State.afterEngine; split <;> rfl
@[simp] theorem afterEngine_host : (s.afterEngine w a b).host = s.host := by
  unfold State.afterEngine; split <;> rfl
@[simp] theorem afterEngine_taken : (s.afterEngine w a b).taken = s.taken := by
  unfold State.afterEngine; split <;> rfl

end AfterEngine

end Sys2Proof.Laws
end

