-- ==== Sys2Proof/Laws/Ops.lean ====
section
/-!
SUPPORT. What each shared operation can do, said once: the halves and packets as numbers, the working registers held
at 64 bits, the host read, a whole divide on State.
-/

namespace Sys2Proof.Laws

open Sys2Proof.Machine

/-! ## Halves and packets as numbers -/

theorem lo_toNat (v : Word64) : (lo v).toNat = v.toNat % 2 ^ 32 := by simp [lo]

theorem hi_toNat (v : Word64) : (hi v).toNat = v.toNat / 2 ^ 32 := by
  simp [hi, Nat.shiftRight_eq_div_pow]; omega

/-- Three fields side by side, as a number. -/
theorem fields_toNat {m : Nat} (x : BitVec m) (a b : Word64) :
    (x ++ a ++ b : BitVec (m + 64 + 64)).toNat = x.toNat * 2 ^ 128 + a.toNat * 2 ^ 64 + b.toNat := by
  rw [BitVec.toNat_append, BitVec.toNat_append, ← Nat.shiftLeft_add_eq_or_of_lt b.isLt,
    ← Nat.shiftLeft_add_eq_or_of_lt a.isLt, Nat.shiftLeft_eq, Nat.shiftLeft_eq]
  ring

theorem request_toPacket_toNat (r : Request) :
    r.toPacket.toNat = r.op.toNat * 2 ^ 128 + r.a.toNat * 2 ^ 64 + r.b.toNat :=
  fields_toNat r.op r.a r.b

theorem response_toPacket_toNat (p : Response) :
    p.toPacket.toNat = p.st.bit.toNat * 2 ^ 128 + p.q.toNat * 2 ^ 64 + p.r.toNat :=
  fields_toNat p.st.bit p.q p.r

/-! ## Working registers at 64 bits -/

theorem bits_le_64 (w : Width) : w.bits ≤ 64 := by cases w <;> decide

/-- An engine of width W reads back what it wrote. -/
@[simp] theorem narrow_widen {w : Width} (e : Regs w.bits) : e.widen.narrow w.bits = e := by
  simp only [Regs.widen, Regs.narrow, BitVec.setWidth_setWidth_of_le _ (bits_le_64 w), BitVec.setWidth_eq]

@[simp] theorem iterate_dvs_toNat {n : Nat} (e : Regs n) : e.iterate.dvs.toNat = e.dvs.toNat / 2 := by
  simp [Regs.iterate, BitVec.toNat_ushiftRight, Nat.shiftRight_eq_div_pow]

@[simp] theorem iterate_bw_toNat {n : Nat} (e : Regs n) : e.iterate.bw.toNat = e.bw.toNat / 2 := by
  simp [Regs.iterate, BitVec.toNat_ushiftRight, Nat.shiftRight_eq_div_pow]

@[simp] theorem iterate_shift {n : Nat} (e : Regs n) : e.iterate.shift = e.shift := rfl

theorem finished_iff {n : Nat} (e : Regs n) : e.finished = true ↔ e.bw = 0 ∨ e.rem = 0 := by
  simp [Regs.finished]

/-! ## The host read -/

/-- A read gives the response an idle unit holds; it faults in every other case. -/
theorem readResp_eq_ok {s : State} {p : Response} : s.readResp = .ok p ↔ s.phase = .idle ∧ s.resp = some p := by
  unfold State.readResp
  cases s.phase <;> cases s.resp <;> simp

/-! ## A whole divide -/

/-- What a whole divide at width W does to State: the response, an idle unit, and the working registers only where the
engine ran. -/
theorem divideAt_eq (s : State) (w : Width) (a b : BitVec w.bits) :
    s.divideAt w a b =
      { s with
        eng := if generalCase a b then (engineRun w a b).widen else s.eng
        resp := some (divideResponse w a b)
        phase := .idle } := by
  unfold State.divideAt State.afterEngine State.respond
  split <;> rfl

theorem generalCase_iff {n : Nat} (a b : BitVec n) : generalCase a b = true ↔ b ≠ 0 ∧ b < a := by
  simp [generalCase]

end Sys2Proof.Laws
end

