-- ==== Sys2Proof/Laws/PerInstr.lean ====
section
/-!
SUPPORT. Per-instruction families: TableRow, an operation's packet matches its own row of spec/opcode_table.json and no other.
-/

namespace Sys2Proof.Laws.TableRow

/-- The table's mask, the same in its four rows. -/
def mask : BitVec 130 := 0x300000000000000000000000000000000

/-- The match of an operation's row. -/
def rowMatch : Instr → BitVec 130
  | .clz32 _ _ => 0x000000000000000000000000000000000
  | .clz64 _ _ => 0x100000000000000000000000000000000
  | .divu32 _ _ => 0x200000000000000000000000000000000
  | .divu64 _ _ => 0x300000000000000000000000000000000

/-- The packet of the operation, under the table's mask, is the match of its row. -/
def Statement (i : Instr) : Prop := encodePacket i &&& mask = rowMatch i

/-- The mask keeps exactly the operation code. -/
theorem mask_toPacket (r : Request) : (r.toPacket &&& mask).toNat = r.op.toNat * 2 ^ 128 := by
  have ha := r.a.isLt
  have hb := r.b.isLt
  have hop := r.op.isLt
  have hm : mask.toNat = (2 ^ 2 - 1) * 2 ^ 128 := by decide
  have hd : r.toPacket.toNat / 2 ^ 128 = r.op.toNat := by
    rw [Laws.request_toPacket_toNat]; omega
  have hand : ∀ x : Nat, x &&& (2 ^ 2 - 1) * 2 ^ 128 = (x / 2 ^ 128 % 2 ^ 2) * 2 ^ 128 := by
    intro x
    have hlo : (x &&& (2 ^ 2 - 1) * 2 ^ 128) % 2 ^ 128 = 0 := by
      rw [Nat.and_mod_two_pow, Nat.mul_mod_left, Nat.and_zero]
    have hhi : (x &&& (2 ^ 2 - 1) * 2 ^ 128) / 2 ^ 128 = x / 2 ^ 128 % 2 ^ 2 := by
      rw [Nat.and_div_two_pow, Nat.mul_div_cancel _ (by positivity), Nat.and_two_pow_sub_one_eq_mod]
    omega
  rw [BitVec.toNat_and, hm, hand, hd, Nat.mod_eq_of_lt hop]

/-- A packet matches the row whose match is its operation code. -/
theorem matches_row (op : BitVec 2) (v : BitVec 130) (h : v.toNat = op.toNat * 2 ^ 128) (a b : Word64) :
    (Request.mk op a b).toPacket &&& mask = v :=
  BitVec.eq_of_toNat_eq ((mask_toPacket ⟨op, a, b⟩).trans h.symm)

theorem clz32 (a b : Word64) : Statement (.clz32 a b) := matches_row 0b00 0 (by decide) a b
theorem clz64 (a b : Word64) : Statement (.clz64 a b) :=
  matches_row 0b01 0x100000000000000000000000000000000 (by decide) a b
theorem divu32 (a b : Word64) : Statement (.divu32 a b) :=
  matches_row 0b10 0x200000000000000000000000000000000 (by decide) a b
theorem divu64 (a b : Word64) : Statement (.divu64 a b) :=
  matches_row 0b11 0x300000000000000000000000000000000 (by decide) a b

end Sys2Proof.Laws.TableRow
end

