-- ==== Sys2Proof/Laws/Step.lean ====
section
/-!
SUPPORT. What one step can do, said once: each lemma lists every way its operation can answer a next state.
-/

namespace Sys2Proof.Laws

open Sys2Proof.Machine

/-- One arrow of R68 touches neither REQ nor the host's lists. -/
theorem tick_keeps (s : State) : s.tick.req = s.req ∧ s.tick.host = s.host ∧ s.tick.taken = s.taken := by
  unfold State.tick
  split <;> exact ⟨rfl, rfl, rfl⟩

/-- RESP changes only on the arrow that leaves the unit idle. -/
theorem tick_resp {s : State} (h : s.tick.phase ≠ .idle) : s.tick.resp = s.resp := by
  unfold State.tick at *
  split <;> simp_all

theorem proceed_of_accepted {s : State} {r : Request} (h : s.phase = .accepted r) :
    s.proceed = exec (decodeRequest r) s := by
  simp [State.proceed, h]

theorem proceed_of_not_accepted {s : State} (h : ∀ r, s.phase ≠ .accepted r) : s.proceed = .next s.tick := by
  unfold State.proceed
  split
  · exact absurd ‹_› (h _)
  · rfl

/-- The unit alone: it runs the accepted request whole, or it takes one arrow of R68. -/
theorem proceed_cases {s t : State} (h : s.proceed = .next t) :
    (∃ r, s.phase = .accepted r ∧ exec (decodeRequest r) s = .next t) ∨
    ((∀ r, s.phase ≠ .accepted r) ∧ t = s.tick) := by
  by_cases hr : ∃ r, s.phase = .accepted r
  · obtain ⟨r, hr⟩ := hr
    exact .inl ⟨r, hr, (proceed_of_accepted hr).symm.trans h⟩
  · have hn : ∀ r, s.phase ≠ .accepted r := fun r hp => hr ⟨r, hp⟩
    rw [proceed_of_not_accepted hn] at h
    injection h with h
    exact .inr ⟨hn, h.symm⟩

theorem issue_of_busy {s : State} {r : Request} {rest : List HostAction} (h : s.phase ≠ .idle) :
    s.issue r rest = s.proceed := by
  unfold State.issue
  split
  · exact absurd ‹_› h
  · rfl

/-- Every way a step can answer a next state, by the host's next action. -/
theorem step_cases {s t : State} (h : step s = .next t) :
    (s.host = [] ∧ s.proceed = .next t) ∨
    (∃ rest, s.host = .wait :: rest ∧ { s with host := rest : State }.proceed = .next t) ∨
    (∃ r rest, s.host = .issue r :: rest ∧ s.phase = .idle ∧ t = { s.accept r with host := rest }) ∨
    (∃ r rest, s.host = .issue r :: rest ∧ s.phase ≠ .idle ∧ s.proceed = .next t) ∨
    (∃ rest, s.host = .tick :: rest ∧ t = { s with host := rest : State }.tick) ∨
    (∃ p rest, s.host = .read :: rest ∧ s.phase = .idle ∧ s.resp = some p ∧
      t = { s with host := rest, taken := s.taken ++ [p] }) ∨
    (∃ rest, s.host = .reset :: rest ∧ t = { s with host := rest : State }.resetUnit) := by
  unfold step State.cycle at h
  split at h
  · exact .inl ⟨‹_›, h⟩
  · rename_i r rest hh
    by_cases hp : s.phase = .idle
    · simp only [State.issue, hp] at h
      injection h with h
      exact .inr (.inr (.inl ⟨r, rest, hh, hp, h.symm⟩))
    · rw [issue_of_busy hp] at h
      exact .inr (.inr (.inr (.inl ⟨r, rest, hh, hp, h⟩)))
  · exact .inr (.inl ⟨_, ‹_›, h⟩)
  · injection h with h
    exact .inr (.inr (.inr (.inr (.inl ⟨_, ‹_›, h.symm⟩))))
  · rename_i rest hh
    unfold State.read at h
    split at h
    · rename_i p hr
      obtain ⟨hp, hr⟩ := readResp_eq_ok.1 hr
      injection h with h
      exact .inr (.inr (.inr (.inr (.inr (.inl ⟨p, rest, hh, hp, hr, h.symm⟩)))))
    · cases h
  · injection h with h
    exact .inr (.inr (.inr (.inr (.inr (.inr ⟨_, ‹_›, h.symm⟩)))))

end Sys2Proof.Laws
end

