-- ==== Sys2Proof/Tests/Slice0.lean ====
section
/-!
SUPPORT. The model's own tests: encodings, well-formedness, at most two steps for each operation, the host's side, and one
witness for the hypotheses of each statement. Expected values are from spec/95_test_vectors.md and R39; none is the model's answer.
-/

namespace Sys2Proof.Tests

open Sys2Proof.Machine

/-- The state after one step, where the step has one. -/
def next? (s : State) : Option State :=
  match step s with
  | .next t => some t
  | _ => none

/-- The response that the packet gives as the first request after reset. -/
def respondsTo (packet : BitVec 130) : Option Response :=
  (next? (State.reset.withFetchWord 136 packet.toNat)).bind (·.resp)

/-- The unit after reset with the host's list. -/
def hosted (l : List HostAction) : State := { State.reset with host := l }

/-- The unit, the request accepted, with the host's list. -/
def busyWith (r : Request) (l : List HostAction) : State := (hosted l).accept r

/-- `divu32 100, 3`, the divide of the trace in 95_test_vectors.md 1.3. -/
def div100by3 : Request := ⟨0b10, 100, 3⟩

/-- The trace of 1.3 as loaded. -/
def trace0 : Regs 32 := ⟨5, 0x60, 0x20, 0x64, 0⟩

/-- The trace of 1.3 after its first iteration, and after its fifth. -/
def trace1 : Regs 32 := ⟨5, 0x30, 0x10, 0x04, 0x20⟩
def trace5 : Regs 32 := ⟨5, 0x03, 0x01, 0x04, 0x20⟩

/-! ## Encoding: words written out from R30 and R31 -/

theorem test_decode_clz32 :
    decodeTableWord 136 0x000000000000100000000000000000000 = some (.clz32 0x10000 0) := by decide
theorem test_decode_clz64 :
    decodeTableWord 136 0x100000345CAFEBABE0000000000000000 = some (.clz64 0x345CAFEBABE 0) := by decide
theorem test_decode_divu32 :
    decodeTableWord 136 0x200000000000000640000000000000003 = some (.divu32 100 3) := by decide
theorem test_decode_divu64 :
    decodeTableWord 136 0x300000345CAFEBABE0000000000000010 = some (.divu64 0x345CAFEBABE 16) := by decide
theorem test_encode_divu32 :
    encodePacket (.divu32 100 3) = 0x200000000000000640000000000000003 := by decide
theorem test_decode_refuses_bit_130 : decodeTableWord 136 (2 ^ 130) = none := by decide

/-! ## The forms the assembler writes: one ill-formed term for each check -/

theorem test_canonical_refuses_wide_clz32 : (Instr.clz32 0x100000000 0).canonical = false := by decide
theorem test_canonical_refuses_clz32_b : (Instr.clz32 1 1).canonical = false := by decide
theorem test_canonical_refuses_clz64_b : (Instr.clz64 1 1).canonical = false := by decide
theorem test_canonical_refuses_wide_dividend : (Instr.divu32 0x100000000 1).canonical = false := by decide
theorem test_canonical_refuses_wide_divisor : (Instr.divu32 1 0x100000000).canonical = false := by decide
theorem test_canonical_takes_divu64 : (Instr.divu64 0x100000000 0x100000000).canonical = true := by decide
theorem test_assemble_unknown_variable :
    (AsmLine.assemble [("v", 7)] (.clz64 (.hostVar "w"))).toOption = none := by decide
theorem test_assemble_variable :
    (AsmLine.assemble [("v", 0xFFFFFFFF00000007)] (.clz32 (.hostVar "v"))).toOption = some (.clz32 7 0) := by decide

/-! ## One step of each operation (95_test_vectors.md 2.1 to 2.4) -/

theorem test_clz32_upper_bits_not_read :
    respondsTo 0x012345678000000010000000000000000 = some ⟨.ok, 31, 0⟩ := by decide
theorem test_clz32_zero : respondsTo 0x0FFFFFFFF00000000FFFFFFFFFFFFFFFF = some ⟨.ok, 32, 0⟩ := by decide
theorem test_clz64_high_branch : respondsTo 0x100000001000000000000000000000000 = some ⟨.ok, 31, 0⟩ := by decide
theorem test_clz64_low_branch : respondsTo 0x100000000FFFFFFFF0000000000000000 = some ⟨.ok, 32, 0⟩ := by decide
theorem test_divu32_upper_bits_not_read :
    respondsTo 0x2FFFFFFFF000000640000000100000003 = some ⟨.ok, 0x21, 1⟩ := by decide
theorem test_divu32_zero_over_zero :
    respondsTo 0x200000000000000000000000000000000 = some ⟨.divisionByZero, 0xFFFFFFFF, 0⟩ := by decide
theorem test_divu64_sentinel_before_fast_path :
    respondsTo 0x300000000000000050000000000000000 = some ⟨.divisionByZero, 0xFFFFFFFFFFFFFFFF, 0⟩ := by decide
theorem test_divu64_engine :
    respondsTo 0x3123456789ABCDEF0000000000FEDCBA9 = some ⟨.ok, 0x12492492E, 0x048D1592⟩ := by decide

/-! ## The engine (95_test_vectors.md 1.3, 2.3, 2.4) -/

theorem test_load : load .w32 100 3 = trace0 := by decide
theorem test_first_iteration : trace0.iterate = trace1 := by decide
theorem test_trace_iterations : iterationCount .w32 100 3 = 6 := by decide
theorem test_iterations_shift32 : iterationCount .w64 0xFFFFFFFFFFFFFFFF#64 0xFFFFFFFF#64 = 33 := by decide

/-! ## The host's side -/

theorem test_read_before_first_response : step (hosted [.read]) = .fault .respUnwritten := rfl
theorem test_read_in_flight : step (busyWith div100by3 [.read]) = .fault .respStale := rfl
theorem test_reset_in_flight : (next? (busyWith div100by3 [.reset])).map (·.resp) = some none := by decide
theorem test_accept_enters_align :
    (next? (busyWith div100by3 [.tick])).map (·.phase) = some (.align .w32 100 3) := by decide

/-! ## Witnesses: the hypotheses of each statement can be met, clause by clause -/

/-- For OpcodeSelectsOperation. -/
theorem witness_opcode_bits :
    ((0#130).getLsbD 129 = false ∧ (0#130).getLsbD 128 = false) ∧
    ((BitVec.ofNat 130 (2 ^ 128)).getLsbD 129 = false ∧ (BitVec.ofNat 130 (2 ^ 128)).getLsbD 128 = true) ∧
    ((BitVec.ofNat 130 (2 ^ 129)).getLsbD 129 = true ∧ (BitVec.ofNat 130 (2 ^ 129)).getLsbD 128 = false) ∧
    ((BitVec.allOnes 130).getLsbD 129 = true ∧ (BitVec.allOnes 130).getLsbD 128 = true) := by decide

/-- For AssemblerWritesCanonicalRequests, Clz32Operation, Clz64Operation, Divu32Operation and Divu64Operation: a line that
assembles, the widest literals taken and the narrowest refused, as dividend and as divisor. -/
theorem witness_literals :
    (∃ i, AsmLine.assemble [] (.clz32 (.literal (2 ^ 32 - 1))) = .ok i) ∧ 2 ^ 32 - 1 < 2 ^ 32 ∧ 2 ^ 64 - 1 < 2 ^ 64 ∧
    (AsmLine.assemble [] (.divu32 (.literal (2 ^ 32)) (.literal 0))).toOption = none ∧
    (AsmLine.assemble [] (.divu64 (.literal (2 ^ 64)) (.literal 0))).toOption = none ∧
    (AsmLine.assemble [] (.divu32 (.literal 0) (.literal (2 ^ 32)))).toOption = none ∧
    (AsmLine.assemble [] (.divu64 (.literal 0) (.literal (2 ^ 64)))).toOption = none :=
  ⟨⟨_, rfl⟩, by decide, by decide, by decide, by decide, by decide, by decide⟩

/-- For Clz32RecursionAndClosedForm and Clz32Operation: a word other than zero, and one whose highest set bit is bit 31. -/
theorem witness_count32 :
    (1 : Word32) ≠ 0 ∧ (0x80000000 : Word32).getLsbD 31 = true ∧
    (∀ k, 31 < k → (0x80000000 : Word32).getLsbD k = false) ∧ (0x80000000 : Word64).getLsbD 31 = true :=
  ⟨by decide, by decide, fun k hk => BitVec.getLsbD_of_ge _ k (by omega), by decide⟩

/-- For Clz64CompositionAndClosedForm and Clz64Operation: both branches where they meet, and bit 63 set. -/
theorem witness_count64 :
    (0x100000000 : Word64).extractLsb' 32 32 ≠ 0 ∧ (0xFFFFFFFF : Word64).extractLsb' 32 32 = 0 ∧
    (0x8000000000000000 : Word64).getLsbD 63 = true := by decide

/-- For CountIsLeadingZeros: a word other than zero and the lowest bit above its highest set one. -/
theorem witness_leading_zeros :
    (3 : BitVec Width.w32.bits) ≠ 0 ∧ Width.w32.bits - clz .w32 3 ≤ 2 ∧ (3 : BitVec Width.w32.bits).getLsbD 2 = false := by
  decide

/-- For DivideEdgePolicy, DivideIsFloorAndMod, CrossWidthConsistency and DivideLawAndBounds: a pair in each of the four
cases, and the two divisors of the largest quotient. -/
theorem witness_edge_cases :
    ((7 : Word32) ≠ 0 ∧ ¬ (0 : Word32) ≠ 0) ∧ ((16 : Word32) ≠ 0 ∧ (16 : Word32) = 16) ∧
    ((16 : Word32) ≠ 0 ∧ (16 : Word32) ≠ 15 ∧ (15 : Word32) < 16) ∧
    ((16 : Word32) ≠ 0 ∧ (16 : Word32) ≠ 17 ∧ ¬ (17 : Word32) < 16) ∧
    ((0xFFFFFFFF : Word32) = BitVec.allOnes 32 ∧ (1 : Word32) ≠ 0) := by decide

/-- For EngineEntry, AlignmentDistance, EngineLoad, LoopInvariantKept and LoopControl: `b < a`; `b = a`, where the engine is
not entered; a zero divisor, where it is not either; and an iteration between the first and the last. -/
theorem witness_engine_entry :
    ((0 : Word32) < 3 ∧ (3 : Word32) ≤ 100 ∧ (3 : Word32) < 100) ∧ ((0 : Word32) < 3 ∧ (3 : Word32) ≤ 3) ∧
    (¬ ((0 : Word32) < 3 ∧ (3 : Word32) < 3) ∧ ¬ ((0 : Word32) < 0 ∧ (0 : Word32) < 3)) ∧
    (0 < 1 ∧ 1 < iterationCount .w32 100 3) := by decide

/-- For EngineIteration and LoopInvariantKept: the loop invariant holds in the trace of 1.3 as loaded, where DVS fits and the
loop goes on; it holds before the last iteration, which ends the loop; and after the first one DVS does not fit. -/
theorem witness_loop_invariant :
    (LoopInv .w32 100 3 5 trace0 ∧ trace0.dvs ≤ trace0.rem ∧ trace0.iterate.finished = false) ∧
    (LoopInv .w32 100 3 0 trace5 ∧ trace5.iterate.finished = true) ∧ ¬ trace1.dvs ≤ trace1.rem :=
  ⟨⟨⟨by decide, by decide, by decide, by decide, by decide, by decide, by decide⟩, by decide, by decide⟩,
    ⟨⟨by decide, by decide, by decide, by decide, by decide, by decide, by decide⟩, by decide⟩, by decide⟩

/-- For Divu32Operation and Divu64Operation: each clause, at the values where they meet. -/
theorem witness_divide_clauses :
    ((0xFFFFFFFF00000000 : Word64).toNat % 2 ^ 32 = 0) ∧
    ((3 : Word64).toNat % 2 ^ 32 ≠ 0 ∧ (3 : Word64).toNat % 2 ^ 32 ≤ (3 : Word64).toNat % 2 ^ 32) ∧
    ((3 : Word64) ≠ 0 ∧ (0xFFFFFFFF : Word64).extractLsb' 32 32 = 0 ∧ (3 : Word64).extractLsb' 32 32 = 0) ∧
    ((3 : Word64) ≠ 0 ∧ (0x100000000 : Word64).extractLsb' 32 32 ≠ 0) ∧ ((3 : Word64) ≤ 3) := by decide

/-- For StatusIsDivisionByZero, ResultsAreZeroExtended and UnreadBitsHaveNoEffect: operations of each named form, and two
fields that differ only above bit 31. -/
theorem witness_forms :
    (∃ a b, Instr.divu32 5 0xFFFFFFFF00000000 = .divu32 a b ∧ b.extractLsb' 0 32 = 0) ∧
    (∃ a, Instr.divu64 5 0 = .divu64 a 0) ∧ (∃ a b, Instr.clz32 1 0 = .clz32 a b) ∧ (∃ a b, Instr.clz64 1 0 = .clz64 a b) ∧
    ((0xFFFFFFFF00000064 : Word64) ≠ 100 ∧
      (0xFFFFFFFF00000064 : Word64).extractLsb' 0 32 = (100 : Word64).extractLsb' 0 32) :=
  ⟨⟨_, _, rfl, by decide⟩, ⟨_, rfl⟩, ⟨_, _, rfl⟩, ⟨_, _, rfl⟩, by decide⟩

/-- For ResponseDependsOnRequestAlone: two different states with one request accepted, idle again after two arrows. -/
theorem witness_two_states :
    busyWith ⟨0b00, 1, 0⟩ [] ≠ { busyWith ⟨0b00, 1, 0⟩ [] with resp := some ⟨.ok, 7, 7⟩, eng := trace0.widen } ∧
    (State.tick^[2] (busyWith ⟨0b00, 1, 0⟩ [])).phase = .idle := by decide

/-- For StepRunsAcceptedRequest, RequestIsReadOnce, IssueWaitsWhileBusy, HostReadsResponse and ResetAbandonsOperation: a busy
unit before each of the host's actions, and an idle one. -/
theorem witness_hosts :
    ((busyWith div100by3 []).phase = .accepted div100by3 ∧ (busyWith div100by3 []).host = []) ∧
    ((busyWith div100by3 [.wait]).phase ≠ .idle ∧ (busyWith div100by3 [.wait]).host = [.wait]) ∧
    ((busyWith div100by3 [.issue div100by3]).phase ≠ .idle ∧
      (busyWith div100by3 [.issue div100by3]).host = [.issue div100by3]) ∧
    ((busyWith div100by3 [.read]).phase ≠ .idle ∧ (busyWith div100by3 [.read]).host = [.read]) ∧
    ((busyWith div100by3 [.reset, .read]).host = [.reset, .read]) ∧
    ((hosted [.issue div100by3]).phase = .idle ∧ (hosted [.read]).phase = .idle ∧ (hosted [.read]).resp = none) ∧
    (({ hosted [.read] with resp := some ⟨.ok, 1, 0⟩ } : State).resp = some ⟨.ok, 1, 0⟩) := by decide

/-- For PlacedWordRuns: the decoder takes the packet of `divu32 100, 3`. -/
theorem witness_table_word : ∃ i, decodeTableWord 136 0x200000000000000640000000000000003 = some i :=
  ⟨.divu32 100 3, by decide⟩

/-- For ResponseAppearsWhole, RequestIsReadOnce and WorkingRegistersChangeOnlyInEngine: a step that leaves an operation in
flight, a read that answers, the two steps that end an operation, and a step that changes the working registers; none of them an issue or a reset. -/
theorem witness_steps :
    (∃ t, step (busyWith div100by3 [.tick]) = .next t ∧ t.phase ≠ .idle) ∧
    (∃ t, step { hosted [.read] with resp := some ⟨.ok, 1, 0⟩ } = .next t) ∧
    (∃ t, step (busyWith div100by3 []) = .next t ∧ t.resp ≠ (busyWith div100by3 []).resp ∧ t.phase = .idle ∧
      ∀ rest, (busyWith div100by3 []).host ≠ .reset :: rest) ∧
    (∃ t, step { hosted [] with phase := .done ⟨.ok, 1, 0⟩ } = .next t ∧ t.resp = some ⟨.ok, 1, 0⟩ ∧ t.phase = .idle) ∧
    (∃ t, step (busyWith div100by3 []) = .next t ∧ t.eng ≠ (busyWith div100by3 []).eng) ∧
    (∀ r rest, (busyWith div100by3 [.tick]).host ≠ .issue r :: rest) ∧
    (∀ rest, (busyWith div100by3 [.tick]).host ≠ .reset :: rest) :=
  ⟨⟨_, rfl, by decide⟩, ⟨_, rfl⟩, ⟨_, rfl, by decide, by decide, by simp [busyWith, State.accept, hosted]⟩,
    ⟨_, rfl, by decide, by decide⟩, ⟨_, rfl, by decide⟩, by simp [busyWith, State.accept, hosted],
    by simp [busyWith, State.accept, hosted]⟩

/-- For PhaseArrows and TicksRefineExec: a state in each phase, both outcomes of a start, a divide on each side of each line
between them and of the fast path, both outcomes of an iteration, and a
tick of the host's. -/
theorem witness_phases :
    ((busyWith div100by3 []).phase = .accepted div100by3 ∧
      start (decodeRequest div100by3) = .engine .w32 100 3) ∧
    (start (decodeRequest ⟨0b00, 1, 0⟩) = .direct ⟨.ok, 31, 0⟩) ∧
    (¬ (0 < operand .w32 (3 : Word64) ∧ operand .w32 (3 : Word64) < operand .w32 3) ∧
      ¬ ((0 : Word64) < 0 ∧ (0 : Word64) < 3)) ∧
    ((0x100000000 : Word64).extractLsb' 32 32 ≠ 0 ∧ (0 : Word64) < 3 ∧ (3 : Word64) < 0x100000000) ∧
    ((100 : Word64).extractLsb' 32 32 = 0 ∧ (3 : Word64).extractLsb' 32 32 = 0 ∧ (3 : Word64) < 100) ∧
    (({ hosted [] with phase := .align .w32 100 3 } : State).phase = .align .w32 100 3) ∧
    (trace0.iterate.bw ≠ 0 ∧ trace0.iterate.rem ≠ 0) ∧ (trace5.iterate.bw = 0 ∨ trace5.iterate.rem = 0) ∧
    (({ hosted [] with phase := .iter .w32, eng := trace0.widen } : State).eng = trace0.widen) ∧
    (({ hosted [] with phase := .done ⟨.ok, 1, 0⟩ } : State).phase = .done ⟨.ok, 1, 0⟩) ∧
    ((hosted [.tick]).phase = .idle ∧ (hosted [.tick]).host = [.tick]) := by decide

/-- For UnitNeverHangs and StepKeepsInv: a busy state with the invariant, and its step. -/
theorem witness_invariant :
    (busyWith div100by3 []).Inv ∧ (busyWith div100by3 []).phase ≠ .idle ∧ (busyWith div100by3 []).host = [] ∧
    ∃ t, step (busyWith div100by3 []) = .next t :=
  ⟨⟨by simp [busyWith, State.accept], by simp [busyWith, State.accept], by simp [busyWith, State.accept],
    by simp [busyWith, State.accept], by simp [busyWith, State.accept]⟩, by decide, rfl, ⟨_, rfl⟩⟩

/-- For ResponsesInRequestOrder: an idle unit whose host calls two requests. -/
theorem witness_calls :
    (hosted (hostCalls [div100by3, ⟨0b00, 1, 0⟩])).phase = .idle ∧
    (hosted (hostCalls [div100by3, ⟨0b00, 1, 0⟩])).host = hostCalls [div100by3, ⟨0b00, 1, 0⟩] := by decide

/-- For InstancesAreIndependent: two instances, each with a step. -/
theorem witness_instances :
    (0 : Fin 2) ≠ 1 ∧
    (∃ p, Platform.stepUnit (#v[hosted [], busyWith div100by3 []] : Platform 2) 0 = .next p) ∧
    (∃ p, Platform.stepUnit (#v[hosted [], busyWith div100by3 []] : Platform 2) 1 = .next p) :=
  ⟨by decide, ⟨_, rfl⟩, ⟨_, rfl⟩⟩

end Sys2Proof.Tests
end

section
/-!
PROOFS. What an operation responds and what each arrow of R68 does, said once; with them the statements about the response
register of 10_state.md: its status and sentinel (O28), and that it depends on the request alone (O31).
-/

namespace Sys2Proof.Proofs

open Sys2Proof.Machine Sys2Proof.Laws

/-! ## The response of an operation run whole -/

/-- The response that an operation run whole writes, by the meanings of R43, R44, R62 and R63. It has no state to read. -/
def execResponse : Instr → Response
  | .clz32 a _ => countResponse (clz32 (operand .w32 a))
  | .clz64 a _ => countResponse (clz64 (operand .w64 a))
  | .divu32 a b => divideResponse .w32 (operand .w32 a) (operand .w32 b)
  | .divu64 a b =>
    if b = 0 then sentinel64
    else if hi a = 0 ∧ hi b = 0 then divideResponse .w32 (lo a) (lo b)
    else divideResponse .w64 a b

/-- Every operation in every state: RESP gets `execResponse`, the unit is idle again, and of the rest only the working
registers may change (R15). -/
theorem exec_eq_next (i : Instr) (s : State) :
    ∃ e, exec i s = .next { s with eng := e, resp := some (execResponse i), phase := .idle } := by
  cases i with
  | clz32 a b => exact ⟨s.eng, rfl⟩
  | clz64 a b => exact ⟨s.eng, rfl⟩
  | divu32 a b => exact ⟨_, congrArg Host.Outcome.next (divideAt_eq s .w32 _ _)⟩
  | divu64 a b =>
    simp only [exec, execDivu64, execResponse]
    split
    · exact ⟨s.eng, rfl⟩
    · split
      · exact ⟨_, congrArg Host.Outcome.next (divideAt_eq s .w32 _ _)⟩
      · exact ⟨_, congrArg Host.Outcome.next (divideAt_eq s .w64 _ _)⟩

/-! ## The divide by zero -/

theorem divideResponse_zero (w : Width) (a : BitVec w.bits) :
    divideResponse w a 0 = ⟨.divisionByZero, zext64 (BitVec.allOnes w.bits), 0⟩ := by
  simp [divideResponse, divide, zext64]

/-- Only the first case of the edge policy reports a division by zero (R51). -/
theorem divideResponse_st_iff (w : Width) (a b : BitVec w.bits) :
    (divideResponse w a b).st = .divisionByZero ↔ b = 0 := by
  simp only [divideResponse, divide]
  split
  · simp_all
  · split
    · simp_all
    · split <;> simp_all

/-- A word whose high half is zero is zero exactly when its low half is: the fast path of R63 meets no new zero divisor. -/
theorem lo_eq_zero_iff {v : Word64} (h : hi v = 0) : lo v = 0 ↔ v = 0 := by
  have hhi := hi_toNat v
  have hlo := lo_toNat v
  simp only [h, BitVec.ofNat_eq_ofNat, BitVec.toNat_eq, BitVec.toNat_zero] at *
  omega

theorem execResponse_divu32_zero (a : Word64) {b : Word64} (h : lo b = 0) :
    execResponse (.divu32 a b) = ⟨.divisionByZero, 0x00000000FFFFFFFF, 0⟩ := by
  simp only [execResponse, operand, h]
  exact divideResponse_zero .w32 (lo a)

theorem execResponse_divu64_zero (a : Word64) :
    execResponse (.divu64 a 0) = ⟨.divisionByZero, 0xFFFFFFFFFFFFFFFF, 0⟩ := by
  simp [execResponse, sentinel64]

theorem execResponse_divu64_st_iff (a b : Word64) :
    (execResponse (.divu64 a b)).st = .divisionByZero ↔ b = 0 := by
  by_cases hb : b = 0
  · subst hb
    rw [execResponse_divu64_zero]
    exact iff_of_true rfl rfl
  · by_cases hhi : hi a = 0 ∧ hi b = 0
    · simp only [execResponse, hb, hhi, and_self, if_true, if_false, divideResponse_st_iff]
      exact (lo_eq_zero_iff hhi.2).trans (iff_of_false hb id)
    · simp only [execResponse, hb, hhi, if_false]
      exact (divideResponse_st_iff .w64 a b).trans (iff_of_false hb id)

/-- The status is DivisionByZero exactly for a divide whose divisor, at the width of the operation, is zero (R13, R71). -/
theorem execResponse_st_iff (i : Instr) :
    (execResponse i).st = .divisionByZero ↔
      (∃ a b, i = .divu32 a b ∧ lo b = 0) ∨ (∃ a, i = .divu64 a 0) := by
  cases i with
  | clz32 a b => simp [execResponse, countResponse]
  | clz64 a b => simp [execResponse, countResponse]
  | divu32 a b => simpa [execResponse, operand] using divideResponse_st_iff .w32 (lo a) (lo b)
  | divu64 a b => simpa using execResponse_divu64_st_iff a b

/-- Settles O28: every operation writes `execResponse`, whose status and sentinel the lemmas above give. -/
theorem statusIsDivisionByZero : Obligations.StatusIsDivisionByZero := by
  refine ⟨⟨rfl, rfl⟩, fun i s => ?_⟩
  obtain ⟨e, he⟩ := exec_eq_next i s
  refine ⟨_, execResponse i, he, rfl, execResponse_st_iff i, ?_, ?_⟩
  · rintro a b rfl hb
    rw [execResponse_divu32_zero a hb]
    exact ⟨rfl, rfl⟩
  · rintro a rfl
    rw [execResponse_divu64_zero]
    exact ⟨rfl, rfl⟩

/-! ## The arrows of R68, one by one -/

section Tick

variable {s : State}

theorem tick_of_idle (h : s.phase = .idle) : s.tick = s := by
  simp [State.tick, h]

theorem tick_of_accepted {r : Request} (h : s.phase = .accepted r) :
    s.tick = { s with phase := (start (decodeRequest r)).phase } := by
  simp [State.tick, h]

theorem tick_of_align {w : Width} {a b : BitVec w.bits} (h : s.phase = .align w a b) :
    s.tick = { s with eng := (load w a b).widen, phase := .iter w } := by
  simp [State.tick, h]

theorem tick_of_iter {w : Width} (h : s.phase = .iter w) :
    s.tick = { s with eng := (s.iterate w).widen, phase := (s.iterate w).nextPhase } := by
  simp [State.tick, h]

theorem tick_of_done {p : Response} (h : s.phase = .done p) : s.tick = s.respond p := by
  simp [State.tick, h]

end Tick

@[simp] theorem start_phase_ne_idle (x : Start) : x.phase ≠ .idle := by
  cases x <;> simp [Start.phase]

@[simp] theorem start_phase_ne_iter (x : Start) (w : Width) : x.phase ≠ .iter w := by
  cases x <;> simp [Start.phase]

@[simp] theorem nextPhase_ne_idle {w : Width} (e : Regs w.bits) : e.nextPhase ≠ .idle := by
  unfold Regs.nextPhase
  split <;> simp

/-! ## Two units with the same operation -/

/-- Two units are at the same point of the same operation: their phases agree, their working registers agree where an
iteration reads them, and RESP agrees once the operation is over. Nothing else of the two states is compared. -/
structure SameOperation (s s' : State) : Prop where
  phase : s.phase = s'.phase
  eng : ∀ w, s.phase = .iter w → s.eng = s'.eng
  resp : s.phase = .idle → s.resp = s'.resp

theorem sameOperation_of_accepted {s s' : State} {r : Request} (h : s.phase = .accepted r)
    (h' : s'.phase = .accepted r) : SameOperation s s' :=
  ⟨h.trans h'.symm, by simp [h], by simp [h]⟩

/-- One arrow of R68 keeps the agreement: ALIGN loads the working registers before an iteration reads them (R57), and DONE
writes RESP before the unit is idle. -/
theorem SameOperation.tick {s s' : State} (h : SameOperation s s') : SameOperation s.tick s'.tick := by
  obtain ⟨hphase, heng, hresp⟩ := h
  cases hs : s.phase with
  | idle =>
    rw [tick_of_idle hs, tick_of_idle (hphase ▸ hs)]
    exact ⟨hphase, heng, hresp⟩
  | accepted r =>
    rw [tick_of_accepted hs, tick_of_accepted (hphase ▸ hs)]
    exact ⟨rfl, by simp, by simp⟩
  | align w a b =>
    rw [tick_of_align hs, tick_of_align (hphase ▸ hs)]
    exact ⟨rfl, fun _ _ => rfl, by simp⟩
  | iter w =>
    have hit : s.iterate w = s'.iterate w := by simp only [State.iterate, heng w hs]
    rw [tick_of_iter hs, tick_of_iter (hphase ▸ hs), hit]
    exact ⟨rfl, fun _ _ => rfl, by simp⟩
  | done p =>
    rw [tick_of_done hs, tick_of_done (hphase ▸ hs)]
    exact ⟨rfl, by simp, fun _ => rfl⟩

theorem SameOperation.iterate_tick {s s' : State} (h : SameOperation s s') (n : Nat) :
    SameOperation (State.tick^[n] s) (State.tick^[n] s') := by
  induction n with
  | zero => exact h
  | succ n ih => simpa only [Function.iterate_succ_apply'] using ih.tick

/-- Settles O31: run whole, both states get `execResponse`; arrow by arrow, they stay at the same point of the operation. -/
theorem responseDependsOnRequestAlone : Obligations.ResponseDependsOnRequestAlone := by
  refine ⟨fun i s s' => ?_, fun r s s' n h h' => ?_⟩
  · obtain ⟨e, he⟩ := exec_eq_next i s
    obtain ⟨e', he'⟩ := exec_eq_next i s'
    exact ⟨_, _, he, he', rfl⟩
  · have hsame := (sameOperation_of_accepted h h').iterate_tick n
    exact ⟨hsame.phase, hsame.resp⟩

end Sys2Proof.Proofs
end

section
/-!
PROOFS. The statements about the packets of 30_encoding.md: the fields of request and response and their places (O3, O5), the
operation code (O4), the encoded examples (O6), and the bits an operation does not read or leaves zero (O30, O29).
-/

namespace Sys2Proof.Proofs

open Sys2Proof.Machine Sys2Proof.Laws

/-! ## Three fields side by side -/

section Fields

variable {m : Nat}

theorem extract_field_top (x : BitVec m) (a b : Word64) :
    (x ++ a ++ b : BitVec (m + 64 + 64)).extractLsb' 128 m = x := by
  rw [BitVec.extractLsb'_append_eq_of_le (by omega)]
  exact BitVec.extractLsb'_append_eq_left

theorem extract_field_middle (x : BitVec m) (a b : Word64) :
    (x ++ a ++ b : BitVec (m + 64 + 64)).extractLsb' 64 64 = a := by
  rw [BitVec.extractLsb'_append_eq_of_le le_rfl]
  exact BitVec.extractLsb'_append_eq_right

theorem extract_field_bottom (x : BitVec m) (a b : Word64) :
    (x ++ a ++ b : BitVec (m + 64 + 64)).extractLsb' 0 64 = b :=
  BitVec.extractLsb'_append_eq_right

/-- The three fields of a packet, side by side again, are the packet. -/
theorem append_fields (v : BitVec (m + 64 + 64)) :
    v.extractLsb' 128 m ++ v.extractLsb' 64 64 ++ v.extractLsb' 0 64 = v := by
  rw [BitVec.extractLsb'_append_extractLsb'_eq_extractLsb' (by rfl),
    BitVec.extractLsb'_append_extractLsb'_eq_extractLsb' (by rfl), BitVec.extractLsb'_eq_self]

end Fields

/-! ## The request packet -/

@[simp] theorem toPacket_ofPacket (p : BitVec Config.requestBits) : (Request.ofPacket p).toPacket = p :=
  append_fields (m := 2) p

/-- Settles O3: each field is read back from its place, and the three places make up the packet. -/
theorem requestPacketLayout : Obligations.RequestPacketLayout :=
  ⟨fun r => ⟨extract_field_top r.op r.a r.b, extract_field_middle r.op r.a r.b, extract_field_bottom r.op r.a r.b⟩,
    toPacket_ofPacket, by decide⟩

/-! ## The operation code -/

section OperationCode

variable {r : Request}

theorem decodeRequest_eq_clz32 (h1 : r.op.getLsbD 1 = false) (h0 : r.op.getLsbD 0 = false) :
    decodeRequest r = .clz32 r.a r.b := by
  simp only [decodeRequest, h1, h0]

theorem decodeRequest_eq_clz64 (h1 : r.op.getLsbD 1 = false) (h0 : r.op.getLsbD 0 = true) :
    decodeRequest r = .clz64 r.a r.b := by
  simp only [decodeRequest, h1, h0]

theorem decodeRequest_eq_divu32 (h1 : r.op.getLsbD 1 = true) (h0 : r.op.getLsbD 0 = false) :
    decodeRequest r = .divu32 r.a r.b := by
  simp only [decodeRequest, h1, h0]

theorem decodeRequest_eq_divu64 (h1 : r.op.getLsbD 1 = true) (h0 : r.op.getLsbD 0 = true) :
    decodeRequest r = .divu64 r.a r.b := by
  simp only [decodeRequest, h1, h0]

end OperationCode

/-- The bits of the operation code are bits 128 and 129 of the packet (R30). -/
theorem ofPacket_op_getLsbD (p : BitVec Config.requestBits) {k : Nat} (hk : k < 2) :
    (Request.ofPacket p).op.getLsbD k = p.getLsbD (128 + k) := by
  simp [Request.ofPacket, hk]

/-- Settles O4: the two bits of the packet are those of the operation code, and each pair has its own operation. -/
theorem opcodeSelectsOperation : Obligations.OpcodeSelectsOperation := by
  intro p
  have op1 := ofPacket_op_getLsbD p (k := 1) (by decide)
  have op0 := ofPacket_op_getLsbD p (k := 0) (by decide)
  exact ⟨fun h1 h0 => decodeRequest_eq_clz32 (op1.trans h1) (op0.trans h0),
    fun h1 h0 => decodeRequest_eq_clz64 (op1.trans h1) (op0.trans h0),
    fun h1 h0 => decodeRequest_eq_divu32 (op1.trans h1) (op0.trans h0),
    fun h1 h0 => decodeRequest_eq_divu64 (op1.trans h1) (op0.trans h0)⟩

/-! ## The response packet -/

@[simp] theorem status_ofBit_bit (st : Status) : Status.ofBit st.bit = st := by
  cases st <;> rfl

@[simp] theorem status_bit_ofBit (v : BitVec 1) : (Status.ofBit v).bit = v := by
  obtain rfl | rfl := v.eq_zero_or_eq_one <;> rfl

theorem status_bit_eq_ite (st : Status) : st.bit = if st = .ok then 0 else 1 := by
  cases st <;> rfl

section ResponseFields

variable (p : Response)

theorem response_toPacket_st : p.toPacket.extractLsb' 128 1 = p.st.bit := extract_field_top p.st.bit p.q p.r
theorem response_toPacket_q : p.toPacket.extractLsb' 64 64 = p.q := extract_field_middle p.st.bit p.q p.r
theorem response_toPacket_r : p.toPacket.extractLsb' 0 64 = p.r := extract_field_bottom p.st.bit p.q p.r

@[simp] theorem response_ofPacket_toPacket : Response.ofPacket p.toPacket = p := by
  simp only [Response.ofPacket, response_toPacket_st, response_toPacket_q, response_toPacket_r, status_ofBit_bit]

end ResponseFields

@[simp] theorem response_toPacket_ofPacket (v : BitVec Config.responseBits) : (Response.ofPacket v).toPacket = v := by
  simp only [Response.toPacket, Response.ofPacket, status_bit_ofBit]
  exact append_fields (m := 1) v

/-- Settles O5: each field is read back from its place, the status by its code, and the three places make up the packet. -/
theorem responsePacketLayout : Obligations.ResponsePacketLayout :=
  ⟨fun p => ⟨(response_toPacket_st p).trans (status_bit_eq_ite p.st), response_toPacket_q p, response_toPacket_r p,
    response_ofPacket_toPacket p⟩, response_toPacket_ofPacket, by decide⟩

/-! ## The encoded examples -/

theorem op_cases (op : BitVec 2) : op = 0b00 ∨ op = 0b01 ∨ op = 0b10 ∨ op = 0b11 := by
  revert op
  decide

/-- The request of the operation that a request decodes to is the request: no operation code has two meanings (R31). -/
@[simp] theorem encodeRequest_decodeRequest (r : Request) : encodeRequest (decodeRequest r) = r := by
  obtain ⟨op, a, b⟩ := r
  obtain rfl | rfl | rfl | rfl := op_cases op
  · exact congrArg encodeRequest (decodeRequest_eq_clz32 (by simp) (by simp))
  · exact congrArg encodeRequest (decodeRequest_eq_clz64 (by simp) (by simp))
  · exact congrArg encodeRequest (decodeRequest_eq_divu32 (by simp) (by simp))
  · exact congrArg encodeRequest (decodeRequest_eq_divu64 (by simp) (by simp))

@[simp] theorem encodePacket_decodePacket (p : BitVec Config.requestBits) : encodePacket (decodePacket p) = p := by
  simp only [encodePacket, decodePacket, encodeRequest_decodeRequest, toPacket_ofPacket]

/-- A row of R39 runs in every state when its line assembles to its request and `execResponse` gives its response. -/
theorem exampleRuns_of_execResponse {l : AsmLine} {request : BitVec 130} {response : BitVec 129}
    (hasm : (l.assemble []).toOption = some (decodePacket request))
    (hresp : (execResponse (decodePacket request)).toPacket = response) : ExampleRuns l request response := by
  refine ⟨hasm, encodePacket_decodePacket request, fun s => ?_⟩
  obtain ⟨e, he⟩ := exec_eq_next (decodePacket request) s
  exact ⟨_, _, he, rfl, hresp⟩

/-- Settles O6: no row depends on the state, so the assembled line and the response of each are closed facts. -/
theorem encodedExamplesRun : Obligations.EncodedExamplesRun :=
  ⟨exampleRuns_of_execResponse (by decide) (by decide), exampleRuns_of_execResponse (by decide) (by decide),
    exampleRuns_of_execResponse (by decide) (by decide), exampleRuns_of_execResponse (by decide) (by decide),
    exampleRuns_of_execResponse (by decide) (by decide), exampleRuns_of_execResponse (by decide) (by decide)⟩

/-! ## The bits an operation does not read -/

theorem exec_clz32 (a b : Word64) (s : State) :
    exec (.clz32 a b) s = .next (s.respond (countResponse (clz32 (lo a)))) := rfl

theorem exec_clz64 (a b : Word64) (s : State) : exec (.clz64 a b) s = .next (s.respond (countResponse (clz64 a))) := rfl

theorem exec_divu32 (a b : Word64) (s : State) : exec (.divu32 a b) s = .next (s.divideAt .w32 (lo a) (lo b)) := rfl

/-- Settles O30: a count never names its field b, and a 32-bit operation names its fields by their low halves alone. -/
theorem unreadBitsHaveNoEffect : Obligations.UnreadBitsHaveNoEffect := by
  refine ⟨fun v => ⟨rfl, rfl⟩, fun a a' b b' s => ⟨?_, fun ha => ?_, fun ha hb => ?_⟩⟩
  · rw [exec_clz64, exec_clz64]
  · have ha : lo a = lo a' := ha
    rw [exec_clz32, exec_clz32, ha]
  · have ha : lo a = lo a' := ha
    have hb : lo b = lo b' := hb
    rw [exec_divu32, exec_divu32, ha, hb]

/-! ## The bits an operation leaves zero -/

theorem extractLsb'_eq_zero_of_lt {v : Word64} {k : Nat} (n : Nat) (h : v.toNat < 2 ^ k) : v.extractLsb' k n = 0 := by
  apply BitVec.eq_of_toNat_eq
  simp [Nat.shiftRight_eq_div_pow, Nat.div_eq_of_lt h]

theorem clz32Rec_le (n : Nat) (x : Word32) : clz32Rec n x ≤ 32 := by
  induction n generalizing x with
  | zero => exact le_rfl
  | succ n ih =>
    unfold clz32Rec
    split
    · exact le_rfl
    · exact (Nat.sub_le _ _).trans (ih _)

theorem clz32_le (x : Word32) : clz32 x ≤ 32 := clz32Rec_le 32 x

theorem clz32_le_64 (x : Word32) : clz32 x ≤ 64 := (clz32_le x).trans (by decide)

theorem clz64_le (x : Word64) : clz64 x ≤ 64 := by
  have hhi := clz32_le (hi x)
  have hlo := clz32_le (lo x)
  unfold clz64
  split <;> omega

theorem countResponse_q_toNat {n : Nat} (h : n ≤ 64) : (countResponse n).q.toNat = n :=
  Nat.mod_eq_of_lt (by omega)

/-- Seven bits hold every count (R35). -/
theorem countResponse_q_upper {n : Nat} (h : n ≤ 64) : (countResponse n).q.extractLsb' 7 57 = 0 :=
  extractLsb'_eq_zero_of_lt 57 (by rw [countResponse_q_toNat h]; omega)

/-- Widening a 32-bit result adds zeros only. -/
theorem zext64_upper (v : Word32) : (zext64 v).extractLsb' 32 32 = 0 := by
  have hv : (zext64 v).toNat = v.toNat := BitVec.toNat_setWidth_of_le (by decide)
  exact extractLsb'_eq_zero_of_lt 32 (hv ▸ v.isLt)

theorem countResponse_upper {n : Nat} (h : n ≤ 64) :
    (countResponse n).q.extractLsb' 32 32 = 0 ∧ (countResponse n).r.extractLsb' 32 32 = 0 := by
  refine ⟨extractLsb'_eq_zero_of_lt 32 ?_, BitVec.extractLsb'_zero⟩
  rw [countResponse_q_toNat h]
  omega

theorem execResponse_divu32_upper (a b : Word64) :
    (execResponse (.divu32 a b)).q.extractLsb' 32 32 = 0 ∧ (execResponse (.divu32 a b)).r.extractLsb' 32 32 = 0 :=
  ⟨zext64_upper _, zext64_upper _⟩

/-- Settles O29: a count is at most W, so it fits in seven bits, and the results of a 32-bit divide are widened. -/
theorem resultsAreZeroExtended : Obligations.ResultsAreZeroExtended := by
  intro i s
  obtain ⟨e, he⟩ := exec_eq_next i s
  refine ⟨_, execResponse i, he, rfl, ?_, ?_, ?_⟩
  · rintro a b (rfl | rfl)
    · exact countResponse_upper (clz32_le_64 _)
    · exact execResponse_divu32_upper a b
  · rintro a b rfl
    exact ⟨(countResponse_q_toNat (clz32_le_64 _)).trans_le (clz32_le _), countResponse_q_upper (clz32_le_64 _), rfl⟩
  · rintro a b rfl
    exact ⟨(countResponse_q_toNat (clz64_le a)).trans_le (clz64_le a), countResponse_q_upper (clz64_le a), rfl⟩

end Sys2Proof.Proofs
end

section
/-!
PROOFS. The statements about the leading-zero count of 40_clz.md. Its closed form W - len(x) is proved once, from the recursion
(R41) and the composition (R42), and everything else is read off it: O8 and O9, the count as zero bits above the highest set bit
(O10), its anchors (O11), the identity across widths (O12), and the operations CLZ32 (O13) and CLZ64 (O14).
-/

namespace Sys2Proof.Proofs

open Sys2Proof.Machine Sys2Proof.Laws

/-! ## The bit length, by division and by bits -/

/-- Each bit shifted out shortens a number by one, down to nothing. -/
theorem bitLen_div_two_pow (n k : Nat) : bitLen (n / 2 ^ k) = bitLen n - k :=
  bitLen_eq fun j => by
    rw [Nat.div_lt_iff_lt_mul (Nat.two_pow_pos k), ← Nat.pow_add, ← bitLen_le, Nat.sub_le_iff_le_add]

theorem bitLen_toNat_le {n : Nat} (x : BitVec n) : bitLen x.toNat ≤ n := bitLen_le.2 x.isLt

theorem bitLen_toNat_pos {n : Nat} {x : BitVec n} (h : x ≠ 0) : 0 < bitLen x.toNat :=
  bitLen_pos (BitVec.toNat_ne.1 h)

theorem lt_bitLen_of_testBit {n p : Nat} (hp : n.testBit p = true) : p < bitLen n := by
  by_contra hle
  have hlt : n < 2 ^ p := bitLen_le.1 (Nat.le_of_not_lt hle)
  exact absurd hlt (Nat.not_lt.2 (Nat.ge_two_pow_of_testBit hp))

theorem testBit_of_bitLen_le {n k : Nat} (h : bitLen n ≤ k) : n.testBit k = false :=
  Nat.testBit_lt_two_pow (bitLen_le.1 h)

theorem testBit_bitLen_pred {n : Nat} (h : n ≠ 0) : n.testBit (bitLen n - 1) = true := by
  simp [bitLen, h, Nat.testBit_log2 h]

/-- The bit length is one more than the index of the highest set bit. -/
theorem bitLen_eq_succ {n p : Nat} (hp : n.testBit p = true) (habove : ∀ k, p < k → n.testBit k = false) :
    bitLen n = p + 1 :=
  le_antisymm (bitLen_le.2 (Nat.lt_pow_two_of_testBit n habove)) (lt_bitLen_of_testBit hp)

/-! ## The closed form -/

theorem bitLen_ushiftRight_one (x : Word32) : bitLen (x >>> 1).toNat = bitLen x.toNat - 1 := by
  rw [BitVec.toNat_ushiftRight, Nat.shiftRight_eq_div_pow, bitLen_div_two_pow]

/-- The recursion of R41 with `n` shifts left, for a word that they bring to zero. -/
theorem clz32Rec_eq {n : Nat} {x : Word32} (h : bitLen x.toNat ≤ n) : clz32Rec n x = 32 - bitLen x.toNat := by
  induction n generalizing x with
  | zero => rw [Nat.le_zero.1 h, clz32Rec]
  | succ n ih =>
    unfold clz32Rec
    split
    case isTrue hx => subst hx; rfl
    case isFalse hx =>
      have hpos : 0 < bitLen x.toNat := bitLen_toNat_pos hx
      have hshift := bitLen_ushiftRight_one x
      rw [ih (by omega)]
      omega

theorem clz32_eq (x : Word32) : clz32 x = 32 - bitLen x.toNat := clz32Rec_eq (bitLen_toNat_le x)

theorem bitLen_hi (x : Word64) : bitLen (hi x).toNat = bitLen x.toNat - 32 := by
  rw [hi_toNat, bitLen_div_two_pow]

theorem lo_toNat_of_hi_eq_zero {x : Word64} (h : hi x = 0) : (lo x).toNat = x.toNat := by
  have hhi : x.toNat / 2 ^ 32 = 0 := by rw [← hi_toNat, h]; rfl
  rw [lo_toNat]
  omega

theorem clz64_of_hi_ne_zero {x : Word64} (h : hi x ≠ 0) : clz64 x = clz32 (hi x) := if_pos h

theorem clz64_of_hi_eq_zero {x : Word64} (h : hi x = 0) : clz64 x = 32 + clz32 (lo x) := if_neg (not_not_intro h)

theorem clz64_eq (x : Word64) : clz64 x = 64 - bitLen x.toNat := by
  have hlen := bitLen_hi x
  by_cases hx : hi x = 0
  · rw [hx] at hlen
    have hle : bitLen x.toNat ≤ 32 := Nat.sub_eq_zero_iff_le.1 hlen.symm
    rw [clz64_of_hi_eq_zero hx, clz32_eq, lo_toNat_of_hi_eq_zero hx]
    omega
  · have hpos : 0 < bitLen (hi x).toNat := bitLen_toNat_pos hx
    rw [clz64_of_hi_ne_zero hx, clz32_eq]
    omega

/-- The closed form of the count, at both widths (R41, R42). -/
theorem clz_eq (w : Width) (x : BitVec w.bits) : clz w x = w.bits - bitLen x.toNat := by
  cases w
  · exact clz32_eq x
  · exact clz64_eq x

/-- The closed form the other way round: what is not a leading zero is the bit length. -/
theorem bits_sub_clz (w : Width) (x : BitVec w.bits) : w.bits - clz w x = bitLen x.toNat := by
  rw [clz_eq, Nat.sub_sub_self (bitLen_toNat_le x)]

theorem clz_eq_bits_iff {w : Width} {x : BitVec w.bits} : clz w x = w.bits ↔ x = 0 := by
  constructor
  · intro h
    by_contra hx
    have hpos : 0 < bitLen x.toNat := bitLen_toNat_pos hx
    have hlen := bits_sub_clz w x
    omega
  · rintro rfl
    rw [clz_eq]
    simp [bitLen]

/-- A word whose highest bit is set has no leading zeros. -/
theorem clz_eq_zero_of_top_bit {w : Width} {x : BitVec w.bits} (h : x.getLsbD (w.bits - 1) = true) : clz w x = 0 := by
  have hlen : w.bits - 1 < bitLen x.toNat := lt_bitLen_of_testBit ((BitVec.testBit_toNat x).trans h)
  rw [clz_eq]
  omega

/-! ## The statements about the count -/

/-- Settles O8: the closed form, with a shift taking one from the bit length and the highest set bit giving it. -/
theorem clz32RecursionAndClosedForm : Obligations.Clz32RecursionAndClosedForm := by
  refine ⟨rfl, fun x hx => ?_, fun x => BitVec.ushiftRight_eq_zero le_rfl, clz32_eq, fun x p hp habove => ?_⟩
  · have hpos : 0 < bitLen x.toNat := bitLen_toNat_pos hx
    have hle := bitLen_toNat_le x
    rw [clz32_eq, clz32_eq, bitLen_ushiftRight_one]
    omega
  · have hlen : bitLen x.toNat = p + 1 := bitLen_eq_succ hp habove
    rw [clz32_eq, hlen]
    omega

/-- Settles O9: the two branches are the definition's, and the closed form is theirs put together. -/
theorem clz64CompositionAndClosedForm : Obligations.Clz64CompositionAndClosedForm :=
  ⟨fun _ => clz64_of_hi_ne_zero, fun _ => clz64_of_hi_eq_zero, (clz_eq_bits_iff (w := .w64)).2 rfl, clz64_eq,
    fun _ => rfl, fun _ => rfl⟩

/-- Settles O10: W less the count is the bit length, at and above which every bit is zero, and below which stands a one. -/
theorem countIsLeadingZeros : Obligations.CountIsLeadingZeros := by
  intro w x
  rw [bits_sub_clz]
  refine ⟨?_, clz_eq_bits_iff, fun k hk => testBit_of_bitLen_le hk, fun hx => testBit_bitLen_pred (BitVec.toNat_ne.1 hx)⟩
  rw [clz_eq]
  exact Nat.sub_le _ _

/-- Settles O11: zero has bit length 0, one has bit length 1, and the highest bit of the all-ones word is set. -/
theorem countAnchors : Obligations.CountAnchors := by
  intro w
  have hone : (1 : BitVec w.bits).toNat = 1 := by cases w <;> rfl
  refine ⟨clz_eq_bits_iff.2 rfl, ?_, clz_eq_zero_of_top_bit ?_⟩
  · rw [clz_eq, hone]
    rfl
  · cases w <;> rfl

/-- Settles O12: widening leaves the number, and so the bit length, as it is. -/
theorem countAcrossWidths : Obligations.CountAcrossWidths := by
  intro x
  have hle := bitLen_toNat_le x
  rw [clz64_eq, clz32_eq, BitVec.toNat_setWidth_of_le (by decide)]
  omega

/-! ## The operations -/

/-- A literal of at most W bits is written as it stands (R37). -/
theorem field_literal {w : Width} {n : Nat} (vars : AsmVars) (h : n < 2 ^ w.bits) :
    (AsmOperand.literal n).field w vars = .ok (BitVec.ofNat 64 n) := if_pos h

theorem assemble_clz32_literal {n : Nat} (vars : AsmVars) (h : n < 2 ^ 32) :
    AsmLine.assemble vars (.clz32 (.literal n)) = .ok (.clz32 (BitVec.ofNat 64 n) 0) := by
  rw [AsmLine.assemble, field_literal (w := .w32) vars h]
  rfl

theorem assemble_clz64_literal {n : Nat} (vars : AsmVars) (h : n < 2 ^ 64) :
    AsmLine.assemble vars (.clz64 (.literal n)) = .ok (.clz64 (BitVec.ofNat 64 n) 0) := by
  rw [AsmLine.assemble, field_literal (w := .w64) vars h]
  rfl

/-- Settles O13: code 0b00, the literal as the field, a response and nothing else, and the closed form of the low half. -/
theorem clz32Operation : Obligations.Clz32Operation := by
  refine ⟨fun a b => decodeRequest_eq_clz32 (by simp) (by simp), fun vars _ => assemble_clz32_literal vars, exec_clz32,
    fun a => ?_, fun a ha => ?_, by decide, by decide, by decide⟩
  · exact (clz32_eq (lo a)).trans (by rw [lo_toNat])
  · have htop : (lo a).getLsbD 31 = true := by simpa [lo] using ha
    exact clz_eq_zero_of_top_bit (w := .w32) htop

/-- Settles O14: code 0b01, the literal as the field, a response and nothing else, and the closed form of the word. -/
theorem clz64Operation : Obligations.Clz64Operation :=
  ⟨fun a b => decodeRequest_eq_clz64 (by simp) (by simp), fun vars _ => assemble_clz64_literal vars, exec_clz64, clz64_eq,
    fun _ => clz_eq_zero_of_top_bit (w := .w64), by decide, by decide, by decide, by decide, by decide⟩

end Sys2Proof.Proofs
end

section
/-!
PROOFS. The statements about the shift-and-subtract engine of 41_divu.md section 3: the alignment distance (O18), what is loaded
(O19), one iteration (O20) and the loop invariant (O21). The invariant carries the loop to its result: quotient and remainder, for
every divisor from 1 to the dividend.
-/

namespace Sys2Proof.Proofs

open Sys2Proof.Machine Sys2Proof.Laws

/-! ## Alignment as bit lengths -/

theorem bitLen_mul_two_pow {n : Nat} (h : n ≠ 0) (k : Nat) : bitLen (n * 2 ^ k) = bitLen n + k := by
  have hpos : 0 < bitLen n := bitLen_pos h
  have hdiv : bitLen n = bitLen (n * 2 ^ k) - k := by
    rw [← bitLen_div_two_pow, Nat.mul_div_cancel _ (Nat.two_pow_pos k)]
  omega

/-- Of two numbers with the same bit length, each is less than twice the other. -/
theorem lt_two_mul_of_bitLen_eq {m n : Nat} (hn : n ≠ 0) (h : bitLen m = bitLen n) : m < 2 * n :=
  calc m < 2 ^ bitLen m := lt_pow_bitLen m
    _ = 2 ^ (bitLen n - 1) * 2 := by rw [h, ← pow_succ, Nat.sub_one_add_one (bitLen_pos hn).ne']
    _ ≤ n * 2 := Nat.mul_le_mul_right 2 (pow_bitLen_le hn)
    _ = 2 * n := Nat.mul_comm n 2

/-- A left shift that pushes out no set bit is a multiplication. -/
theorem toNat_shiftLeft_of_lt {n k : Nat} {x : BitVec n} (h : x.toNat * 2 ^ k < 2 ^ n) :
    (x <<< k).toNat = x.toNat * 2 ^ k := by
  rw [BitVec.toNat_shiftLeft, Nat.shiftLeft_eq, Nat.mod_eq_of_lt h]

theorem one_toNat (w : Width) : (1 : BitVec w.bits).toNat = 1 := by cases w <;> rfl

theorem toNat_pos_of_pos {n : Nat} {b : BitVec n} (h : 0 < b) : 0 < b.toNat := by
  simpa [BitVec.lt_def] using h

section Aligned

variable {w : Width} {a b : BitVec w.bits}

/-- The count of the dividend is the smaller one: the distance of R56 is not truncated. -/
theorem clz_dividend_le (hab : b ≤ a) : clz w a ≤ clz w b := by
  rw [clz_eq, clz_eq]
  exact Nat.sub_le_sub_left (bitLen_mono hab) _

/-- SHIFT is what the divisor is shorter than the dividend. -/
theorem bitLen_add_alignShift (hab : b ≤ a) : bitLen b.toNat + alignShift w a b = bitLen a.toNat := by
  have hlen : bitLen b.toNat ≤ bitLen a.toNat := bitLen_mono hab
  have ha := bitLen_toNat_le a
  rw [alignShift, clz_eq, clz_eq]
  omega

variable (hb : 0 < b) (hab : b ≤ a)
include hb hab

theorem dividend_toNat_pos : 0 < a.toNat := (toNat_pos_of_pos hb).trans_le hab

theorem alignShift_lt : alignShift w a b < w.bits := by
  have hlen := bitLen_add_alignShift hab
  have hpos : 0 < bitLen b.toNat := bitLen_pos (toNat_pos_of_pos hb).ne'
  have ha := bitLen_toNat_le a
  omega

/-- The aligned divisor is as long as the dividend. -/
theorem bitLen_aligned : bitLen (b.toNat * 2 ^ alignShift w a b) = bitLen a.toNat := by
  rw [bitLen_mul_two_pow (toNat_pos_of_pos hb).ne', bitLen_add_alignShift hab]

/-- Aligning the divisor shifts out no set bit (R57). -/
theorem aligned_lt : b.toNat * 2 ^ alignShift w a b < 2 ^ w.bits :=
  bitLen_le.1 ((bitLen_aligned hb hab).trans_le (bitLen_toNat_le a))

theorem shiftLeft_alignShift_toNat : (b <<< alignShift w a b).toNat = b.toNat * 2 ^ alignShift w a b :=
  toNat_shiftLeft_of_lt (aligned_lt hb hab)

theorem clz_aligned : clz w (b <<< alignShift w a b) = clz w a := by
  rw [clz_eq, clz_eq, shiftLeft_alignShift_toNat hb hab, bitLen_aligned hb hab]

/-! ## What is loaded -/

theorem load_shift : (load w a b).shift.val = alignShift w a b :=
  Nat.mod_eq_of_lt ((alignShift_lt hb hab).trans_le (bits_le_64 w))

theorem load_bw_toNat : (load w a b).bw.toNat = 2 ^ alignShift w a b := by
  have hpow : 1 * 2 ^ alignShift w a b < 2 ^ w.bits := by
    rw [Nat.one_mul]
    exact Nat.pow_lt_pow_right Nat.one_lt_two (alignShift_lt hb hab)
  have hshift := toNat_shiftLeft_of_lt (x := (1 : BitVec w.bits)) (by rwa [one_toNat])
  rwa [one_toNat, Nat.one_mul] at hshift

end Aligned

/-- Settles O18: the counts are compared as bit lengths, and the aligned divisor is as long as the dividend. -/
theorem alignmentDistance : Obligations.AlignmentDistance :=
  fun _ _ _ hb hab => ⟨clz_dividend_le hab, rfl, Nat.le_sub_one_of_lt (alignShift_lt hb hab), clz_aligned hb hab⟩

/-- Settles O19: the aligned divisor fits in W bits, and so does the bit SHIFT. -/
theorem engineLoad : Obligations.EngineLoad :=
  fun _ _ _ hb hab =>
    ⟨load_shift hb hab, shiftLeft_alignShift_toNat hb hab, load_bw_toNat hb hab, rfl, rfl⟩

/-! ## One iteration -/

section Iteration

variable {n : Nat} {e : Regs n}

theorem iterate_rem_of_le (h : e.dvs ≤ e.rem) : e.iterate.rem = e.rem - e.dvs := if_pos h
theorem iterate_qacc_of_le (h : e.dvs ≤ e.rem) : e.iterate.qacc = e.qacc ||| e.bw := if_pos h
theorem iterate_rem_of_not_le (h : ¬ e.dvs ≤ e.rem) : e.iterate.rem = e.rem := if_neg h
theorem iterate_qacc_of_not_le (h : ¬ e.dvs ≤ e.rem) : e.iterate.qacc = e.qacc := if_neg h

theorem iterate_rem_toNat_of_le (h : e.dvs ≤ e.rem) : e.iterate.rem.toNat = e.rem.toNat - e.dvs.toNat := by
  rw [iterate_rem_of_le h, BitVec.toNat_sub_of_le h]

end Iteration

section Invariant

variable {w : Width} {a b : BitVec w.bits} {k : Nat} {e : Regs w.bits}

/-- A state of the loop has a divisor: with zero there would be no room for a remainder that is not zero. -/
theorem loopInv_divisor_pos (h : LoopInv w a b k e) : 0 < b.toNat := by
  refine Nat.pos_of_ne_zero fun hb => ?_
  have hbound := h.bound
  rw [h.aligned, hb] at hbound
  omega

/-- The bit of BW is still 0 in QACC (R58). -/
theorem loopInv_qacc_and_bw (h : LoopInv w a b k e) : e.qacc &&& e.bw = 0 := by
  obtain ⟨m, hm⟩ := h.fresh
  have hbit : e.qacc.toNat.testBit k = false := by simp [hm, Nat.testBit_two_pow_mul]
  apply BitVec.eq_of_toNat_eq
  simp [h.weight, Nat.and_two_pow, hbit]

/-- So the OR is an addition (R58). -/
theorem loopInv_iterate_qacc_toNat (h : LoopInv w a b k e) (hle : e.dvs ≤ e.rem) :
    e.iterate.qacc.toNat = e.qacc.toNat + e.bw.toNat := by
  obtain ⟨m, hm⟩ := h.fresh
  have hbw : e.bw.toNat < 2 ^ (k + 1) := h.weight ▸ Nat.pow_lt_pow_succ Nat.one_lt_two
  rw [iterate_qacc_of_le hle, BitVec.toNat_or, hm, Nat.two_pow_add_eq_or_of_lt hbw]

/-- Settles O20: the subtraction is made only where DVS fits, and the OR meets a bit that is still 0. -/
theorem engineIteration : Obligations.EngineIteration :=
  ⟨fun _ e => ⟨fun h => ⟨iterate_rem_of_le h, iterate_rem_toNat_of_le h, iterate_qacc_of_le h⟩,
      fun h => ⟨iterate_rem_of_not_le h, iterate_qacc_of_not_le h⟩, iterate_dvs_toNat e, iterate_bw_toNat e,
      iterate_shift e⟩,
    fun _ _ _ _ _ h hle => ⟨loopInv_qacc_and_bw h, loopInv_iterate_qacc_toNat h hle⟩⟩

/-! ## The loop invariant -/

/-- An iteration keeps `a = QACC * b + REM`: what REM loses, QACC gains times the divisor. -/
theorem loopInv_iterate_product (h : LoopInv w a b k e) :
    a.toNat = e.iterate.qacc.toNat * b.toNat + e.iterate.rem.toNat := by
  by_cases hle : e.dvs ≤ e.rem
  · have hsub : e.dvs.toNat ≤ e.rem.toNat := hle
    have hdvs : e.dvs.toNat = e.bw.toNat * b.toNat := by rw [h.aligned, h.weight, Nat.mul_comm]
    rw [loopInv_iterate_qacc_toNat h hle, iterate_rem_toNat_of_le hle, Nat.add_mul, ← hdvs, Nat.add_assoc,
      Nat.add_sub_cancel' hsub]
    exact h.product
  · rw [iterate_qacc_of_not_le hle, iterate_rem_of_not_le hle]
    exact h.product

/-- An iteration leaves REM below the DVS it compared with. -/
theorem loopInv_iterate_rem_lt (h : LoopInv w a b k e) : e.iterate.rem.toNat < e.dvs.toNat := by
  have hbound := h.bound
  by_cases hle : e.dvs ≤ e.rem
  · have hsub : e.dvs.toNat ≤ e.rem.toNat := hle
    rw [iterate_rem_toNat_of_le hle]
    omega
  · rw [iterate_rem_of_not_le hle]
    exact Nat.lt_of_not_le hle

/-- An iteration sets no bit of QACC below BW's. -/
theorem loopInv_iterate_qacc_dvd (h : LoopInv w a b k e) : 2 ^ k ∣ e.iterate.qacc.toNat := by
  have hfresh : 2 ^ k ∣ e.qacc.toNat := (Nat.pow_dvd_pow 2 k.le_succ).trans h.fresh
  by_cases hle : e.dvs ≤ e.rem
  · rw [loopInv_iterate_qacc_toNat h hle, h.weight]
    exact Nat.dvd_add hfresh dvd_rfl
  · rwa [iterate_qacc_of_not_le hle]

/-- BW reaches zero with the iteration at bit 0. -/
theorem loopInv_iterate_bw_eq_zero_iff (h : LoopInv w a b k e) : e.iterate.bw = 0 ↔ k = 0 := by
  rw [BitVec.toNat_eq, iterate_bw_toNat, h.weight]
  cases k with
  | zero => simp
  | succ k => simp [Nat.pow_succ]

/-- An iteration that does not end the loop is not the one at bit 0. -/
theorem loopInv_index_pos (h : LoopInv w a b k e) (hgo : e.iterate.finished = false) : 0 < k := by
  refine Nat.pos_of_ne_zero fun hk => ?_
  have hbw : e.iterate.bw = 0 := (loopInv_iterate_bw_eq_zero_iff h).2 hk
  simp [Regs.finished, hbw] at hgo

theorem loopInv_iterate (h : LoopInv w a b k e) (hgo : e.iterate.finished = false) :
    LoopInv w a b (k - 1) e.iterate := by
  obtain ⟨j, rfl⟩ := Nat.exists_eq_succ_of_ne_zero (loopInv_index_pos h hgo).ne'
  have hdvs : e.iterate.dvs.toNat = b.toNat * 2 ^ j := by
    rw [iterate_dvs_toNat, h.aligned, Nat.pow_succ, ← Nat.mul_assoc, Nat.mul_div_cancel _ Nat.two_pos]
  exact
    { product := loopInv_iterate_product h
      weight := by rw [iterate_bw_toNat, h.weight, Nat.pow_succ, Nat.mul_div_cancel _ Nat.two_pos]; rfl
      aligned := hdvs
      bound := by
        have hlt := loopInv_iterate_rem_lt h
        rw [h.aligned, Nat.pow_succ] at hlt
        rw [hdvs]
        linarith
      running := fun hrem => by simp [Regs.finished, hrem] at hgo
      below := (Nat.sub_le _ 1).trans h.below
      fresh := loopInv_iterate_qacc_dvd h }

/-- The iteration that ends the loop leaves a remainder below the divisor: zero, or what is below DVS at bit 0. -/
theorem loopInv_iterate_finished_rem_lt (h : LoopInv w a b k e) (hend : e.iterate.finished = true) :
    e.iterate.rem.toNat < b.toNat := by
  obtain hbw | hrem := (finished_iff _).1 hend
  · have hk : k = 0 := (loopInv_iterate_bw_eq_zero_iff h).1 hbw
    simpa [h.aligned, hk] using loopInv_iterate_rem_lt h
  · rw [hrem]
    simpa using loopInv_divisor_pos h

theorem loopInv_iterate_finished (h : LoopInv w a b k e) (hend : e.iterate.finished = true) :
    e.iterate.qacc.toNat = a.toNat / b.toNat ∧ e.iterate.rem.toNat = a.toNat % b.toNat := by
  have hsum : e.iterate.rem.toNat + b.toNat * e.iterate.qacc.toNat = a.toNat := by
    rw [loopInv_iterate_product h]
    ring
  have hdiv := (Nat.div_mod_unique (loopInv_divisor_pos h)).2 ⟨hsum, loopInv_iterate_finished_rem_lt h hend⟩
  exact ⟨hdiv.1.symm, hdiv.2.symm⟩

theorem loopInv_load (hb : 0 < b) (hab : b ≤ a) : LoopInv w a b (alignShift w a b) (load w a b) where
  product := by simp [load]
  weight := load_bw_toNat hb hab
  aligned := shiftLeft_alignShift_toNat hb hab
  bound := by
    have hne : b.toNat * 2 ^ alignShift w a b ≠ 0 :=
      (Nat.mul_pos (toNat_pos_of_pos hb) (Nat.two_pow_pos _)).ne'
    simpa only [load, shiftLeft_alignShift_toNat hb hab] using
      lt_two_mul_of_bitLen_eq hne (bitLen_aligned hb hab).symm
  running := BitVec.toNat_ne.2 (dividend_toNat_pos hb hab).ne'
  below := (load_shift hb hab).ge
  fresh := by simp [load]

end Invariant

/-- Settles O21: alignment gives the invariant its bound, and each clause is kept by one iteration. -/
theorem loopInvariantKept : Obligations.LoopInvariantKept :=
  ⟨fun _ _ _ => loopInv_load, fun _ _ _ _ _ h =>
    ⟨fun hgo => ⟨loopInv_index_pos h hgo, loopInv_iterate h hgo⟩, loopInv_iterate_finished h⟩⟩

/-! ## The loop -/

section Loop

variable {n : Nat} {e : Regs n}

theorem loop_of_finished (fuel : Nat) (h : e.iterate.finished = true) : e.loop (fuel + 1) = e.iterate := if_pos h

theorem loop_of_not_finished (fuel : Nat) (h : e.iterate.finished = false) :
    e.loop (fuel + 1) = e.iterate.loop fuel := if_neg (by simp [h])

theorem loopCount_of_finished (fuel : Nat) (h : e.iterate.finished = true) : e.loopCount (fuel + 1) = 1 := if_pos h

theorem loopCount_of_not_finished (fuel : Nat) (h : e.iterate.finished = false) :
    e.loopCount (fuel + 1) = e.iterate.loopCount fuel + 1 := if_neg (by simp [h])

theorem loopCount_pos {fuel : Nat} (e : Regs n) (h : 0 < fuel) : 0 < e.loopCount fuel := by
  obtain ⟨fuel, rfl⟩ := Nat.exists_eq_succ_of_ne_zero h.ne'
  unfold Regs.loopCount
  split <;> exact Nat.succ_pos _

/-- The loop is its count of iterations. -/
theorem loop_eq_iterate (fuel : Nat) (e : Regs n) : e.loop fuel = Regs.iterate^[e.loopCount fuel] e := by
  induction fuel generalizing e with
  | zero => rfl
  | succ fuel ih =>
    cases h : e.iterate.finished with
    | true => rw [loop_of_finished fuel h, loopCount_of_finished fuel h]; rfl
    | false => rw [loop_of_not_finished fuel h, loopCount_of_not_finished fuel h, ih, Function.iterate_succ_apply]

/-- Before its last iteration the loop has not met its end. -/
theorem not_finished_of_lt_loopCount {fuel j : Nat} (hj : 0 < j) (h : j < e.loopCount fuel) :
    (Regs.iterate^[j] e).finished = false := by
  induction fuel generalizing e j with
  | zero => exact absurd h (Nat.not_lt_zero j)
  | succ fuel ih =>
    obtain ⟨j, rfl⟩ := Nat.exists_eq_succ_of_ne_zero hj.ne'
    cases hend : e.iterate.finished with
    | true => rw [loopCount_of_finished fuel hend] at h; omega
    | false =>
      rw [loopCount_of_not_finished fuel hend] at h
      rw [Function.iterate_succ_apply]
      obtain rfl | hj := j.eq_zero_or_pos
      · exact hend
      · exact ih hj (by omega)

end Loop

section LoopResult

variable {w : Width} {a b : BitVec w.bits}

/-- What the loop leaves, from any state of the divide with enough iterations allowed for the bits still to come: it has ended,
within one iteration for each of those bits, with quotient and remainder. -/
structure LoopResult (w : Width) (a b : BitVec w.bits) (k fuel : Nat) (e : Regs w.bits) : Prop where
  count : e.loopCount fuel ≤ k + 1
  ended : (e.loop fuel).finished = true
  quotient : (e.loop fuel).qacc.toNat = a.toNat / b.toNat
  remainder : (e.loop fuel).rem.toNat = a.toNat % b.toNat

theorem loopResult_of_loopInv {k fuel : Nat} {e : Regs w.bits} (h : LoopInv w a b k e) (hk : k < fuel) :
    LoopResult w a b k fuel e := by
  induction fuel generalizing k e with
  | zero => exact absurd hk (Nat.not_lt_zero k)
  | succ fuel ih =>
    cases hend : e.iterate.finished with
    | true =>
      obtain ⟨hq, hr⟩ := loopInv_iterate_finished h hend
      constructor
      · rw [loopCount_of_finished fuel hend]; omega
      all_goals rwa [loop_of_finished fuel hend]
    | false =>
      have hpos := loopInv_index_pos h hend
      obtain ⟨hcount, hended, hq, hr⟩ := ih (loopInv_iterate h hend) (by omega)
      constructor
      · rw [loopCount_of_not_finished fuel hend]; omega
      all_goals rwa [loop_of_not_finished fuel hend]

theorem loopResult_load (hb : 0 < b) (hab : b ≤ a) : LoopResult w a b (alignShift w a b) w.bits (load w a b) :=
  loopResult_of_loopInv (loopInv_load hb hab) (alignShift_lt hb hab)

/-- The engine gives quotient and remainder for every divisor from 1 to the dividend. -/
theorem engine_eq (hb : 0 < b) (hab : b ≤ a) : engine w a b = (a / b, a % b) := by
  obtain ⟨-, -, hq, hr⟩ := loopResult_load hb hab
  refine Prod.ext (BitVec.eq_of_toNat_eq ?_) (BitVec.eq_of_toNat_eq ?_)
  · exact hq.trans BitVec.toNat_udiv.symm
  · exact hr.trans BitVec.toNat_umod.symm

end LoopResult

end Sys2Proof.Proofs
end

section
/-!
PROOFS. The statements about the divide of 41_divu.md: the edge policy (O15), floor and mod (O16), where the engine is entered
(O17), the loop and what the divide returns from it (O22), the two widths (O23), the law and bounds (O24), and the operations
DIVU32 (O25) and DIVU64 (O26). What the divide returns is proved once, as its closed form `divide_eq`.
-/

namespace Sys2Proof.Proofs

open Sys2Proof.Machine Sys2Proof.Laws

/-! ## The edge policy, case by case -/

/-- The two ways in which the statements say that the divisor is not zero. -/
theorem word_pos_iff {n : Nat} {b : BitVec n} : 0 < b ↔ b ≠ 0 := BitVec.pos_iff_ne_zero b

theorem divide_zero (w : Width) (a : BitVec w.bits) :
    divide w a 0 = (.divisionByZero, BitVec.allOnes w.bits, 0) := if_pos rfl

section EdgePolicy

variable {w : Width} {a b : BitVec w.bits}

theorem divide_self (hb : b ≠ 0) : divide w b b = (.ok, 1, 0) := by
  rw [divide, if_neg hb, if_pos rfl]

theorem divide_of_lt (hb : b ≠ 0) (hlt : a < b) : divide w a b = (.ok, 0, a) := by
  rw [divide, if_neg hb, if_neg (BitVec.ne_of_lt hlt).symm, if_pos hlt]

theorem divide_of_gt (hb : b ≠ 0) (hgt : b < a) : divide w a b = (.ok, engine w a b) := by
  rw [divide, if_neg hb, if_neg (BitVec.ne_of_lt hgt), if_neg (BitVec.not_lt.2 (BitVec.le_of_lt hgt))]

/-- The three cases of a divisor other than zero (R51). -/
theorem divisor_cases (a b : BitVec w.bits) : b = a ∨ a < b ∨ b < a := by
  have htri := Nat.lt_trichotomy a.toNat b.toNat
  rw [BitVec.toNat_eq, BitVec.lt_def, BitVec.lt_def]
  omega

/-- The closed form of the divide, at both widths: the shortcuts and the engine give the same values (R61). -/
theorem divide_eq (hb : b ≠ 0) : divide w a b = (.ok, a / b, a % b) := by
  obtain rfl | hlt | hgt := divisor_cases a b
  · rw [divide_self hb, BitVec.udiv_self, BitVec.umod_self, if_neg (by simpa using hb)]
    rfl
  · rw [divide_of_lt hb hlt, BitVec.udiv_eq_zero_iff_eq_zero_or_lt.2 (.inr hlt), BitVec.umod_eq_of_lt hlt]
    rfl
  · rw [divide_of_gt hb hgt, engine_eq (word_pos_iff.2 hb) (BitVec.le_of_lt hgt)]

end EdgePolicy

/-- Settles O15: each case by its own condition, the sentinel in digits, and the values by the closed form. -/
theorem divideEdgePolicy : Obligations.DivideEdgePolicy := by
  refine ⟨fun w a b => ⟨?_, ?_, fun hb _ => divide_of_lt hb, fun hb hne hlt => ?_⟩, fun a => ?_, fun a => ?_,
    fun w b hb => ?_, fun w a b hb => ?_⟩
  · rintro rfl
    exact divide_zero w a
  · rintro hb rfl
    exact divide_self hb
  · exact divide_of_gt hb (BitVec.lt_of_le_ne (BitVec.not_lt.1 hlt) hne)
  · rw [divide_zero .w32 a]
    rfl
  · rw [divide_zero .w64 a]
    rfl
  · exact divide_of_lt hb (word_pos_iff.2 hb)
  · rw [divide_eq hb]
    exact ⟨BitVec.toNat_udiv, BitVec.toNat_umod⟩

/-- Settles O16: the closed form of the divide, in numbers. -/
theorem divideIsFloorAndMod : Obligations.DivideIsFloorAndMod :=
  fun _ a b hb => ⟨a / b, a % b, divide_eq hb, BitVec.toNat_udiv, BitVec.toNat_umod⟩

/-! ## Where the engine is entered -/

section Entry

variable {w : Width} {a b : BitVec w.bits}

theorem startDivide_of_entry (hb : 0 < b) (hgt : b < a) : startDivide w a b = .engine w a b := by
  rw [startDivide, if_neg (word_pos_iff.1 hb), if_neg (BitVec.ne_of_lt hgt),
    if_neg (BitVec.not_lt.2 (BitVec.le_of_lt hgt))]

theorem startDivide_of_not_entry (h : ¬ (0 < b ∧ b < a)) : ∃ p, startDivide w a b = .direct p := by
  unfold startDivide
  split
  · exact ⟨_, rfl⟩
  next hb =>
    obtain rfl | hlt | hgt := divisor_cases a b
    · exact ⟨_, if_pos rfl⟩
    · exact ⟨_, (if_neg (BitVec.ne_of_lt hlt).symm).trans (if_pos hlt)⟩
    · exact absurd ⟨word_pos_iff.2 hb, hgt⟩ h

theorem startDivide_eq_engine_iff : startDivide w a b = .engine w a b ↔ 0 < b ∧ b < a := by
  refine ⟨fun h => ?_, fun h => startDivide_of_entry h.1 h.2⟩
  by_contra hn
  obtain ⟨p, hp⟩ := startDivide_of_not_entry hn
  cases h.symm.trans hp

theorem generalCase_iff_entry : generalCase a b = true ↔ 0 < b ∧ b < a :=
  (generalCase_iff a b).trans (and_congr_left' word_pos_iff.symm)

theorem engine_self (hb : 0 < b) : engine w b b = (1, 0) := by
  have hne : b ≠ 0 := word_pos_iff.1 hb
  have hdiv : divide w b b = (.ok, b / b, b % b) := divide_eq hne
  rw [engine_eq hb (BitVec.le_refl b)]
  exact congrArg Prod.snd (hdiv.symm.trans (divide_self hne))

theorem alignShift_self (w : Width) (b : BitVec w.bits) : alignShift w b b = 0 := Nat.sub_self _

theorem iterationCount_pos (w : Width) (a b : BitVec w.bits) : 0 < iterationCount w a b :=
  loopCount_pos _ (by cases w <;> decide)

theorem iterationCount_le (hb : 0 < b) (hab : b ≤ a) : iterationCount w a b ≤ alignShift w a b + 1 :=
  (loopResult_load hb hab).count

theorem iterationCount_self (hb : 0 < b) : iterationCount w b b = 1 := by
  have hle := iterationCount_le hb (BitVec.le_refl b)
  rw [alignShift_self] at hle
  exact le_antisymm hle (iterationCount_pos w b b)

end Entry

/-- Settles O17: case 4 is what the other cases leave, `a > b > 0`, and the engine is exact from there down to `a = b`. -/
theorem engineEntry : Obligations.EngineEntry := by
  refine fun w a b => ⟨startDivide_eq_engine_iff, startDivide_of_not_entry, generalCase_iff_entry,
    fun hb => divide_of_gt (word_pos_iff.1 hb), ?_, fun hb hab => ?_⟩
  · rintro hb rfl
    exact ⟨engine_self hb, alignShift_self w a, iterationCount_self hb⟩
  · exact ⟨(loopResult_load hb hab).quotient, (loopResult_load hb hab).remainder⟩

/-! ## The loop of a divide -/

theorem load_bw_ne_zero {w : Width} {a b : BitVec w.bits} (hb : 0 < b) (hab : b ≤ a) : (load w a b).bw ≠ 0 := by
  rw [BitVec.toNat_ne, load_bw_toNat hb hab]
  exact (Nat.two_pow_pos _).ne'

/-- The loop has not ended where neither BW nor REM is zero (R59). -/
theorem not_finished_iff {n : Nat} (e : Regs n) : e.finished = false ↔ e.bw ≠ 0 ∧ e.rem ≠ 0 := by
  rw [← Bool.not_eq_true, finished_iff, not_or]

/-- Settles O22: the loop is its count of iterations, of which the last alone ends it, one for each bit from SHIFT down at
the most. -/
theorem loopControl : Obligations.LoopControl := by
  refine ⟨fun w a b hb hab => ?_, fun w a b hb => divide_of_gt (word_pos_iff.1 hb), by decide, by decide⟩
  exact ⟨load_bw_ne_zero hb hab, (loopInv_load hb hab).running, iterationCount_pos w a b, iterationCount_le hb hab,
    alignShift_lt hb hab, loop_eq_iterate w.bits _, (finished_iff _).1 (loopResult_load hb hab).ended,
    fun k hk hlt => (not_finished_iff _).1 (not_finished_of_lt_loopCount hk hlt)⟩

/-! ## The two widths -/

theorem setWidth_ne_zero {b : Word32} (hb : b ≠ 0) : b.setWidth 64 ≠ 0 := by
  rw [BitVec.toNat_ne, BitVec.toNat_setWidth_of_le (by decide)]
  simpa [BitVec.toNat_eq] using hb

theorem setWidth_udiv (a b : Word32) : a.setWidth 64 / b.setWidth 64 = (a / b).setWidth 64 := by
  apply BitVec.eq_of_toNat_eq
  simp only [BitVec.toNat_udiv, BitVec.toNat_setWidth_of_le (show 32 ≤ 64 by decide)]

theorem setWidth_umod (a b : Word32) : a.setWidth 64 % b.setWidth 64 = (a % b).setWidth 64 := by
  apply BitVec.eq_of_toNat_eq
  simp only [BitVec.toNat_umod, BitVec.toNat_setWidth_of_le (show 32 ≤ 64 by decide)]

/-- Settles O23: widening leaves both numbers as they are, and so their quotient and remainder. -/
theorem crossWidthConsistency : Obligations.CrossWidthConsistency := by
  refine ⟨fun a b hb => ⟨a / b, a % b, divide_eq (w := .w32) hb, ?_⟩,
    fun a => ⟨divide_zero .w32 a, divide_zero .w64 (a.setWidth 64)⟩⟩
  rw [divide_eq (w := .w64) (setWidth_ne_zero hb), setWidth_udiv, setWidth_umod]

/-! ## The law and the bounds -/

/-- A quotient of all ones needs the largest dividend and the smallest divisor. -/
theorem udiv_eq_allOnes_iff {w : Width} {a b : BitVec w.bits} (hb : b ≠ 0) :
    a / b = BitVec.allOnes w.bits ↔ a = BitVec.allOnes w.bits ∧ b = 1 := by
  constructor
  · intro h
    have hq : a.toNat / b.toNat = 2 ^ w.bits - 1 := by rw [← BitVec.toNat_udiv, h, BitVec.toNat_allOnes]
    have hmax : a.toNat ≤ 2 ^ w.bits - 1 := Nat.le_sub_one_of_lt a.isLt
    have hpos : 0 < 2 ^ w.bits - 1 := by cases w <;> decide
    have hmul : (2 ^ w.bits - 1) * b.toNat ≤ (2 ^ w.bits - 1) * 1 :=
      calc (2 ^ w.bits - 1) * b.toNat = a.toNat / b.toNat * b.toNat := by rw [hq]
        _ ≤ a.toNat := Nat.div_mul_le_self _ _
        _ ≤ (2 ^ w.bits - 1) * 1 := hmax.trans (Nat.mul_one _).ge
    have hle : b.toNat ≤ 1 := Nat.le_of_mul_le_mul_left hmul hpos
    have hone : b.toNat = 1 := le_antisymm hle (Nat.pos_of_ne_zero (BitVec.toNat_ne.1 hb))
    refine ⟨BitVec.eq_of_toNat_eq ?_, BitVec.eq_of_toNat_eq (hone.trans (one_toNat w).symm)⟩
    rw [BitVec.toNat_allOnes, ← hq, hone, Nat.div_one]
  · rintro ⟨rfl, rfl⟩
    exact BitVec.udiv_one

/-- Settles O24: the law of floor and mod, and the quotient of all ones as the sentinel or by `udiv_eq_allOnes_iff`. -/
theorem divideLawAndBounds : Obligations.DivideLawAndBounds := by
  refine fun w a b => ⟨fun hb => ?_, ?_⟩
  · rw [divide_eq hb]
    refine ⟨?_, BitVec.umod_lt a (word_pos_iff.2 hb), ?_⟩
    · rw [BitVec.toNat_udiv, BitVec.toNat_umod, Nat.mul_comm]
      exact Nat.div_add_mod _ _
    · exact BitVec.toNat_udiv.trans_le (Nat.div_le_self _ _)
  · by_cases hb : b = 0
    · subst hb
      rw [divide_zero w a]
      exact iff_of_true rfl (.inl rfl)
    · simp only [divide_eq hb, udiv_eq_allOnes_iff hb, hb, false_or]

/-! ## DIVU32 -/

theorem assemble_divu32_literal {m n : Nat} (vars : AsmVars) (hm : m < 2 ^ 32) (hn : n < 2 ^ 32) :
    AsmLine.assemble vars (.divu32 (.literal m) (.literal n)) =
      .ok (.divu32 (BitVec.ofNat 64 m) (BitVec.ofNat 64 n)) := by
  rw [AsmLine.assemble, field_literal (w := .w32) vars hm, field_literal (w := .w32) vars hn]
  rfl

/-- The response of a divide by anything but zero, by the mathematics of R61. -/
theorem divideResponse_of_ne_zero {w : Width} {a b : BitVec w.bits} (hb : b ≠ 0) :
    divideResponse w a b = ⟨.ok, BitVec.ofNat 64 (a.toNat / b.toNat), BitVec.ofNat 64 (a.toNat % b.toNat)⟩ := by
  rw [divideResponse, divide_eq hb, ← BitVec.toNat_udiv, ← BitVec.toNat_umod, BitVec.ofNat_toNat, BitVec.ofNat_toNat]
  rfl

/-- A whole divide that does not reach the engine leaves the working registers alone. -/
theorem divideAt_eng_of_le {w : Width} {a b : BitVec w.bits} (s : State) (h : b = 0 ∨ a ≤ b) :
    (s.divideAt w a b).eng = s.eng := by
  have hnot : ¬ generalCase a b = true := by
    rw [generalCase_iff]
    rintro ⟨hb, hgt⟩
    exact h.elim hb fun hle => BitVec.not_lt.2 hle hgt
  rw [divideAt_eq, if_neg hnot]

theorem lo_eq_zero_iff_toNat (v : Word64) : lo v = 0 ↔ v.toNat % 2 ^ 32 = 0 := by
  rw [BitVec.toNat_eq, lo_toNat]
  rfl

/-- Settles O25: the whole divide at width 32 on the low halves, whose numbers are the fields modulo 2^32. -/
theorem divu32Operation : Obligations.Divu32Operation := by
  refine ⟨fun a b => decodeRequest_eq_divu32 (by simp) (by simp), fun vars _ _ => assemble_divu32_literal vars,
    fun a b s => ⟨(s.divideAt .w32 (lo a) (lo b)).eng, divideResponse .w32 (lo a) (lo b), ?_, rfl, fun hb => ?_,
      fun hb => ?_, fun h => divideAt_eng_of_le s ?_⟩⟩
  · rw [exec_divu32, divideAt_eq]
  · rw [(lo_eq_zero_iff_toNat b).2 hb]
    exact divideResponse_zero .w32 (lo a)
  · rw [divideResponse_of_ne_zero (mt (lo_eq_zero_iff_toNat b).1 hb), lo_toNat, lo_toNat]
  · rwa [lo_eq_zero_iff_toNat, BitVec.le_def, lo_toNat, lo_toNat]

/-! ## DIVU64 -/

theorem assemble_divu64_literal {m n : Nat} (vars : AsmVars) (hm : m < 2 ^ 64) (hn : n < 2 ^ 64) :
    AsmLine.assemble vars (.divu64 (.literal m) (.literal n)) =
      .ok (.divu64 (BitVec.ofNat 64 m) (BitVec.ofNat 64 n)) := by
  rw [AsmLine.assemble, field_literal (w := .w64) vars hm, field_literal (w := .w64) vars hn]
  rfl

section Divu64

variable {a b : Word64}

/-- The fast path of R63 is for operands whose high halves are both zero. -/
theorem execResponse_divu64_fast (hb : b ≠ 0) (hhi : hi a = 0 ∧ hi b = 0) :
    execResponse (.divu64 a b) = divideResponse .w32 (lo a) (lo b) := by
  rw [execResponse, if_neg hb, if_pos hhi]

theorem execResponse_divu64_wide (hb : b ≠ 0) (hhi : ¬ (hi a = 0 ∧ hi b = 0)) :
    execResponse (.divu64 a b) = divideResponse .w64 a b := by
  rw [execResponse, if_neg hb, if_neg hhi]

/-- The fast path gives the values of the 64-bit divide (R63, R64). -/
theorem execResponse_divu64_of_ne_zero (hb : b ≠ 0) :
    execResponse (.divu64 a b) = ⟨.ok, BitVec.ofNat 64 (a.toNat / b.toNat), BitVec.ofNat 64 (a.toNat % b.toNat)⟩ := by
  by_cases hhi : hi a = 0 ∧ hi b = 0
  · rw [execResponse_divu64_fast hb hhi, divideResponse_of_ne_zero (mt (lo_eq_zero_iff hhi.2).1 hb),
      lo_toNat_of_hi_eq_zero hhi.1, lo_toNat_of_hi_eq_zero hhi.2]
  · rw [execResponse_divu64_wide hb hhi, divideResponse_of_ne_zero (w := .w64) hb]

/-- DIVU64 in every state, with the working registers left alone where neither path reaches the engine. -/
theorem exec_divu64_eq_next (a b : Word64) (s : State) :
    ∃ eng, exec (.divu64 a b) s = .next { s with eng := eng, resp := some (execResponse (.divu64 a b)), phase := .idle } ∧
      (b = 0 ∨ a ≤ b → eng = s.eng) := by
  simp only [exec, execDivu64]
  by_cases hb : b = 0
  · subst hb
    exact ⟨s.eng, rfl, fun _ => rfl⟩
  by_cases hhi : hi a = 0 ∧ hi b = 0
  · refine ⟨(s.divideAt .w32 (lo a) (lo b)).eng, ?_, fun h => divideAt_eng_of_le s ?_⟩
    · rw [if_neg hb, if_pos hhi, execResponse_divu64_fast hb hhi, divideAt_eq]
    · rwa [lo_eq_zero_iff hhi.2, BitVec.le_def, lo_toNat_of_hi_eq_zero hhi.1, lo_toNat_of_hi_eq_zero hhi.2]
  · refine ⟨(s.divideAt .w64 a b).eng, ?_, divideAt_eng_of_le (w := .w64) s⟩
    rw [if_neg hb, if_neg hhi, execResponse_divu64_wide hb hhi, divideAt_eq]

end Divu64

/-- Settles O26: the response of each path in R63's order, and floor and mod on both. -/
theorem divu64Operation : Obligations.Divu64Operation := by
  refine ⟨fun a b => decodeRequest_eq_divu64 (by simp) (by simp), fun vars _ _ => assemble_divu64_literal vars,
    fun a b s => ?_, by decide, by decide⟩
  obtain ⟨eng, hexec, heng⟩ := exec_divu64_eq_next a b s
  refine ⟨eng, execResponse (.divu64 a b), hexec, ?_, fun hb ha hbhi => execResponse_divu64_fast hb ⟨ha, hbhi⟩,
    fun hb hhi => ?_, execResponse_divu64_of_ne_zero, heng⟩
  · rintro rfl
    exact execResponse_divu64_zero a
  · rw [execResponse_divu64_wide hb (not_and_or.2 hhi), divideResponse]
    simp only [zext64, BitVec.setWidth_eq]

end Sys2Proof.Proofs
end

section
/-!
PROOFS. The statements of 70_reset_and_hazards.md: every operation gets the response the mathematics gives it (O27), and the
unit never hangs (O44). For the second, an arrow of R68 keeps the invariant of the machine, and BW, which each iteration
halves, bounds the arrows to DONE.
-/

namespace Sys2Proof.Proofs

open Sys2Proof.Machine Sys2Proof.Laws

/-! ## The response by the mathematics -/

/-- The sentinel of each width as a number (R52). -/
theorem zext64_allOnes (w : Width) : zext64 (BitVec.allOnes w.bits) = BitVec.ofNat 64 (2 ^ w.bits - 1) := by
  cases w <;> rfl

theorem divideResponse_eq_specDivide (w : Width) (a b : BitVec w.bits) : divideResponse w a b = specDivide w a b := by
  unfold specDivide
  split
  next hb => rw [hb, divideResponse_zero, zext64_allOnes]
  next hb => exact divideResponse_of_ne_zero hb

theorem execResponse_eq_specResponse (i : Instr) : execResponse i = specResponse i := by
  cases i with
  | clz32 a b => rw [execResponse, operand, clz32_eq, lo_toNat]; rfl
  | clz64 a b => rw [execResponse, operand, clz64_eq]; rfl
  | divu32 a b => exact divideResponse_eq_specDivide .w32 _ _
  | divu64 a b =>
    by_cases hb : b = 0
    · subst hb
      exact execResponse_divu64_zero a
    · rw [execResponse_divu64_of_ne_zero hb]
      exact (if_neg hb).symm

/-- Settles O27: every operation writes `execResponse`, which is the response of the mathematics, and keeps REQ and the host's
lists. -/
theorem execMeetsSpec : Obligations.ExecMeetsSpec := by
  intro i s
  obtain ⟨e, he⟩ := exec_eq_next i s
  exact ⟨_, he, congrArg some (execResponse_eq_specResponse i), rfl, rfl, rfl, rfl⟩

/-! ## The response of R68's start -/

/-- The edge policy as R68 uses it: the response of the whole divide at once, or the engine. -/
theorem startDivide_cases (w : Width) (a b : BitVec w.bits) :
    startDivide w a b = .direct (divideResponse w a b) ∨ (startDivide w a b = .engine w a b ∧ 0 < b ∧ b < a) := by
  by_cases hb : b = 0
  · subst hb
    exact .inl ((if_pos rfl).trans (congrArg Start.direct (divideResponse_zero w a).symm))
  obtain rfl | hlt | hgt := divisor_cases a b
  · left
    rw [startDivide, if_neg hb, if_pos rfl, divideResponse, divide_self hb]
    cases w <;> rfl
  · left
    rw [startDivide, if_neg hb, if_neg (BitVec.ne_of_lt hlt).symm, if_pos hlt, divideResponse, divide_of_lt hb hlt]
    cases w <;> rfl
  · exact .inr ⟨startDivide_of_entry (word_pos_iff.2 hb) hgt, word_pos_iff.2 hb, hgt⟩

/-- An accepted request goes to DONE with the response of its whole run, or it is a divide at the width and with the operands
of its whole run (R63). -/
theorem start_direct_or_divide (i : Instr) :
    start i = .direct (execResponse i) ∨
    ∃ w a b, start i = startDivide w a b ∧ execResponse i = divideResponse w a b := by
  cases i with
  | clz32 a b => exact .inl rfl
  | clz64 a b => exact .inl rfl
  | divu32 a b => exact .inr ⟨.w32, _, _, rfl, rfl⟩
  | divu64 a b =>
    by_cases hb : b = 0
    · subst hb
      exact .inl rfl
    by_cases hhi : hi a = 0 ∧ hi b = 0
    · exact .inr ⟨.w32, _, _, (if_neg hb).trans (if_pos hhi), execResponse_divu64_fast hb hhi⟩
    · exact .inr ⟨.w64, a, b, (if_neg hb).trans (if_neg hhi), execResponse_divu64_wide hb hhi⟩

/-- The arrows out of IDLE: to DONE with the response of the mathematics, or to the engine with a divide of which the
mathematics gives that response. -/
theorem start_cases (i : Instr) :
    start i = .direct (specResponse i) ∨
    ∃ w a b, start i = .engine w a b ∧ 0 < b ∧ b < a ∧ divideResponse w a b = specResponse i := by
  rw [← execResponse_eq_specResponse]
  obtain hd | ⟨w, a, b, hstart, hresp⟩ := start_direct_or_divide i
  · exact .inl hd
  · rw [hstart, hresp]
    obtain hd | ⟨he, hb, hgt⟩ := startDivide_cases w a b
    · exact .inl hd
    · exact .inr ⟨w, a, b, he, hb, hgt, rfl⟩

theorem start_engine {i : Instr} {w : Width} {a b : BitVec w.bits} (h : start i = .engine w a b) :
    0 < b ∧ b < a ∧ divideResponse w a b = specResponse i := by
  obtain hd | ⟨w', a', b', he, hrest⟩ := start_cases i
  · cases h.symm.trans hd
  · cases h.symm.trans he
    exact hrest

/-! ## An arrow keeps the invariant -/

section PhaseInv

variable {s : State} {r : Request}

/-! In each phase the invariant asks only for its clause of that phase. -/

theorem inv_of_idle (h : s.phase = .idle) (hreq : s.req = some r)
    (hresp : s.resp = some (specResponse (decodeRequest r))) : s.Inv where
  idle _ p hp := ⟨r, hreq, Option.some.inj (hp.symm.trans hresp)⟩
  accepted := by simp [h]
  align := by simp [h]
  iter := by simp [h]
  done := by simp [h]

theorem inv_of_align {w : Width} {a b : BitVec w.bits} (h : s.phase = .align w a b) (hreq : s.req = some r)
    (hstart : start (decodeRequest r) = .engine w a b) : s.Inv where
  idle := by simp [h]
  accepted := by simp [h]
  align _ _ _ h' := by
    cases h.symm.trans h'
    exact ⟨r, hreq, hstart⟩
  iter := by simp [h]
  done := by simp [h]

theorem inv_of_iter {w : Width} {a b : BitVec w.bits} {k : Nat} {e : Regs w.bits} (h : s.phase = .iter w)
    (hreq : s.req = some r) (hstart : start (decodeRequest r) = .engine w a b) (heng : s.eng = e.widen)
    (hloop : LoopInv w a b k e) : s.Inv where
  idle := by simp [h]
  accepted := by simp [h]
  align := by simp [h]
  iter _ h' := by
    cases h.symm.trans h'
    exact ⟨r, a, b, k, e, hreq, hstart, heng, hloop⟩
  done := by simp [h]

theorem inv_of_done (h : s.phase = .done (specResponse (decodeRequest r))) (hreq : s.req = some r) : s.Inv where
  idle := by simp [h]
  accepted := by simp [h]
  align := by simp [h]
  iter := by simp [h]
  done p h' := ⟨r, hreq, Phase.done.inj (h'.symm.trans h)⟩

end PhaseInv

theorem nextPhase_of_finished {w : Width} {e : Regs w.bits} (h : e.finished = true) :
    e.nextPhase = .done ⟨.ok, zext64 e.qacc, zext64 e.rem⟩ := if_pos h

theorem nextPhase_of_not_finished {w : Width} {e : Regs w.bits} (h : e.finished = false) :
    e.nextPhase = .iter w := if_neg (by simp [h])

/-- The response that the last iteration of a divide leads to is that of the whole divide (R60, R61). -/
theorem loopInv_iterate_response {w : Width} {a b : BitVec w.bits} {k : Nat} {e : Regs w.bits} (h : LoopInv w a b k e)
    (hend : e.iterate.finished = true) :
    (⟨.ok, zext64 e.iterate.qacc, zext64 e.iterate.rem⟩ : Response) = divideResponse w a b := by
  obtain ⟨hq, hr⟩ := loopInv_iterate_finished h hend
  have hb : b ≠ 0 := BitVec.toNat_ne.2 (loopInv_divisor_pos h).ne'
  rw [divideResponse, divide_eq hb, BitVec.eq_of_toNat_eq (hq.trans BitVec.toNat_udiv.symm),
    BitVec.eq_of_toNat_eq (hr.trans BitVec.toNat_umod.symm)]

/-- One arrow of R68 keeps the invariant of the machine. -/
theorem inv_tick {s : State} (h : s.Inv) : s.tick.Inv := by
  cases hs : s.phase with
  | idle => rwa [tick_of_idle hs]
  | accepted r =>
    have hreq := h.accepted r hs
    rw [tick_of_accepted hs]
    obtain hd | ⟨w, a, b, he, -⟩ := start_cases (decodeRequest r)
    · exact inv_of_done (congrArg Start.phase hd) hreq
    · exact inv_of_align (congrArg Start.phase he) hreq he
  | align w a b =>
    obtain ⟨r, hreq, hstart⟩ := h.align w a b hs
    obtain ⟨hb, hgt, -⟩ := start_engine hstart
    rw [tick_of_align hs]
    exact inv_of_iter rfl hreq hstart rfl (loopInv_load hb (BitVec.le_of_lt hgt))
  | iter w =>
    obtain ⟨r, a, b, k, e, hreq, hstart, heng, hloop⟩ := h.iter w hs
    have hit : s.iterate w = e.iterate := by rw [State.iterate, heng, narrow_widen]
    rw [tick_of_iter hs, hit]
    cases hend : e.iterate.finished with
    | true =>
      obtain ⟨-, -, hresp⟩ := start_engine hstart
      refine inv_of_done ((nextPhase_of_finished hend).trans (congrArg Phase.done ?_)) hreq
      exact (loopInv_iterate_response hloop hend).trans hresp
    | false => exact inv_of_iter (nextPhase_of_not_finished hend) hreq hstart rfl (loopInv_iterate hloop hend)
  | done p =>
    obtain ⟨r, hreq, rfl⟩ := h.done p hs
    rw [tick_of_done hs]
    exact inv_of_idle rfl hreq rfl

theorem inv_iterate_tick {s : State} (h : s.Inv) (n : Nat) : (State.tick^[n] s).Inv := by
  induction n with
  | zero => exact h
  | succ n ih => simpa only [Function.iterate_succ_apply'] using inv_tick ih

theorem iterate_tick_req (s : State) (n : Nat) : (State.tick^[n] s).req = s.req := by
  induction n with
  | zero => rfl
  | succ n ih => rw [Function.iterate_succ_apply', (tick_keeps _).1, ih]

/-! ## The unit alone -/

theorem step_of_no_action {s : State} (h : s.host = []) : step s = s.proceed := by
  simp [step, State.cycle, h]

theorem run_succ_of_step {s t : State} (n : Nat) (h : step s = .next t) : core.run (n + 1) s = core.run n t := by
  have hcore : core.step s = .next t := h
  simp only [Host.Core.run, hcore]

/-- Only the host's issue leads to an accepted request; no arrow does. -/
theorem tick_phase_ne_accepted {s : State} (h : ∀ r, s.phase ≠ .accepted r) (r : Request) :
    s.tick.phase ≠ .accepted r := by
  cases hs : s.phase with
  | idle => rw [tick_of_idle hs]; exact h r
  | accepted r' => exact absurd hs (h r')
  | align w a b => simp [tick_of_align hs]
  | iter w =>
    rw [tick_of_iter hs]
    simp only [Regs.nextPhase]
    split <;> simp
  | done p => simp [tick_of_done hs]

/-- With no host action left and no request to run whole, the steps are the arrows of R68. -/
theorem run_eq_iterate_tick {s : State} (hhost : s.host = []) (hacc : ∀ r, s.phase ≠ .accepted r) (n : Nat) :
    core.run n s = .next (State.tick^[n] s) := by
  induction n generalizing s with
  | zero => rfl
  | succ n ih =>
    have hstep : step s = .next s.tick := (step_of_no_action hhost).trans (proceed_of_not_accepted hacc)
    rw [run_succ_of_step n hstep, Function.iterate_succ_apply]
    exact ih ((tick_keeps s).2.1.trans hhost) (tick_phase_ne_accepted hacc)

/-! ## The arrows to DONE -/

theorem tick_iter_of_finished {s : State} {w : Width} (hs : s.phase = .iter w) (hend : (s.iterate w).finished = true) :
    ∃ p, s.tick.phase = .done p :=
  ⟨_, (congrArg State.phase (tick_of_iter hs)).trans (nextPhase_of_finished hend)⟩

theorem tick_iter_of_not_finished {s : State} {w : Width} (hs : s.phase = .iter w)
    (hgo : (s.iterate w).finished = false) : s.tick.phase = .iter w :=
  (congrArg State.phase (tick_of_iter hs)).trans (nextPhase_of_not_finished hgo)

/-- An arrow of ITER takes a bit from BW. -/
theorem tick_iter_bw_toNat {s : State} {w : Width} (hs : s.phase = .iter w) :
    (s.tick.eng.narrow w.bits).bw.toNat = (s.eng.narrow w.bits).bw.toNat / 2 := by
  rw [tick_of_iter hs, narrow_widen, State.iterate, iterate_bw_toNat]

/-- From every ITER state, whatever the working registers hold, DONE follows once BW has no bit left. -/
theorem iter_reaches_done {s : State} {w : Width} {n : Nat} (hs : s.phase = .iter w)
    (hbw : (s.eng.narrow w.bits).bw.toNat < 2 ^ n) : ∃ k p, k ≤ n + 1 ∧ (State.tick^[k] s).phase = .done p := by
  induction n generalizing s with
  | zero =>
    have hzero : (s.iterate w).bw = 0 := by
      apply BitVec.eq_of_toNat_eq
      rw [State.iterate, iterate_bw_toNat, Nat.lt_one_iff.1 hbw]
      rfl
    obtain ⟨p, hp⟩ := tick_iter_of_finished hs ((finished_iff _).2 (.inl hzero))
    exact ⟨1, p, le_rfl, hp⟩
  | succ n ih =>
    cases hend : (s.iterate w).finished with
    | true =>
      obtain ⟨p, hp⟩ := tick_iter_of_finished hs hend
      exact ⟨1, p, by omega, hp⟩
    | false =>
      have hhalf := tick_iter_bw_toNat hs
      obtain ⟨k, p, hk, hdone⟩ := ih (tick_iter_of_not_finished hs hend) (by omega)
      exact ⟨k + 1, p, by omega, hdone⟩

theorem iter_reaches_done_within_65 {s : State} {w : Width} (hs : s.phase = .iter w) :
    ∃ k p, k ≤ 65 ∧ (State.tick^[k] s).phase = .done p := by
  obtain ⟨k, p, hk, hdone⟩ := iter_reaches_done hs (BitVec.isLt _)
  exact ⟨k, p, hk.trans (Nat.succ_le_succ (bits_le_64 w)), hdone⟩

/-- A busy unit that is past the acceptance of its request is in DONE after at most 66 arrows. -/
theorem busy_reaches_done {s : State} (hidle : s.phase ≠ .idle) (hacc : ∀ r, s.phase ≠ .accepted r) :
    ∃ k p, k ≤ 66 ∧ (State.tick^[k] s).phase = .done p := by
  cases hs : s.phase with
  | idle => exact absurd hs hidle
  | accepted r => exact absurd hs (hacc r)
  | align w a b =>
    obtain ⟨k, p, hk, hdone⟩ := iter_reaches_done_within_65 (s := s.tick) (w := w) (by rw [tick_of_align hs])
    exact ⟨k + 1, p, by omega, hdone⟩
  | iter w =>
    obtain ⟨k, p, hk, hdone⟩ := iter_reaches_done_within_65 hs
    exact ⟨k, p, by omega, hdone⟩
  | done p => exact ⟨0, p, by omega, hs⟩

/-- Settles O44: an idle unit needs no step, an accepted request one; any other phase takes at most 66 arrows to DONE, where
the invariant names the response, and one more to write it. -/
theorem unitNeverHangs : Obligations.UnitNeverHangs := by
  intro s hhost
  by_cases hidle : s.phase = .idle
  · exact ⟨0, s, by omega, rfl, hidle, fun _ hbusy => absurd hidle hbusy⟩
  by_cases hacc : ∃ r, s.phase = .accepted r
  · obtain ⟨r, hs⟩ := hacc
    obtain ⟨t, hexec, hresp, hphase, -⟩ := execMeetsSpec (decodeRequest r) s
    have hstep : step s = .next t := (step_of_no_action hhost).trans ((proceed_of_accepted hs).trans hexec)
    exact ⟨1, t, by omega, run_succ_of_step 0 hstep, hphase, fun hinv _ => ⟨r, hinv.accepted r hs, hresp⟩⟩
  · have hnot := not_exists.1 hacc
    obtain ⟨k, p, hk, hdone⟩ := busy_reaches_done hidle hnot
    have hlast : State.tick^[k + 1] s = (State.tick^[k] s).respond p := by
      rw [Function.iterate_succ_apply', tick_of_done hdone]
    refine ⟨k + 1, (State.tick^[k] s).respond p, by omega, hlast ▸ run_eq_iterate_tick hhost hnot (k + 1), rfl,
      fun hinv _ => ?_⟩
    obtain ⟨r, hreq, rfl⟩ := (inv_iterate_tick hinv k).done p hdone
    exact ⟨r, (iterate_tick_req s k).symm.trans hreq, rfl⟩

end Sys2Proof.Proofs
end

section
/-!
PROOFS. The statements about one unit as a whole. The packet and the operation determine each other (O1, O2), and the
assembler writes canonical requests (O7). A step: what it runs (O32, O33), what becomes of REQ (O34, O35), the host's read and
reset (O36, O37), the faults (O39), when RESP and the working registers change (O40, O41). The arrows of R68 (O42) end where
the whole operation does (O43). The invariant holds at reset and every step keeps it (O45, O46); the host's calls get their
responses in order (O38, O47); and several units share nothing (O48).
-/

namespace Sys2Proof.Proofs

open Sys2Proof.Machine Sys2Proof.Laws

/-! ## Packets and operations -/

@[simp] theorem ofPacket_toPacket (r : Request) : Request.ofPacket r.toPacket = r := by
  have hop : r.toPacket.extractLsb' 128 2 = r.op := extract_field_top r.op r.a r.b
  have ha : r.toPacket.extractLsb' 64 64 = r.a := extract_field_middle r.op r.a r.b
  have hb : r.toPacket.extractLsb' 0 64 = r.b := extract_field_bottom r.op r.a r.b
  simp only [Request.ofPacket, hop, ha, hb]

@[simp] theorem decodeRequest_encodeRequest (i : Instr) : decodeRequest (encodeRequest i) = i := by
  cases i with
  | clz32 a b => exact decodeRequest_eq_clz32 (by simp [encodeRequest]) (by simp [encodeRequest])
  | clz64 a b => exact decodeRequest_eq_clz64 (by simp [encodeRequest]) (by simp [encodeRequest])
  | divu32 a b => exact decodeRequest_eq_divu32 (by simp [encodeRequest]) (by simp [encodeRequest])
  | divu64 a b => exact decodeRequest_eq_divu64 (by simp [encodeRequest]) (by simp [encodeRequest])

/-- Settles O1: the packet gives back its request, and the operation code of the request its operation. -/
theorem decodeOfEncode : Obligations.DecodeOfEncode := fun i => by
  rw [encodePacket, decodePacket, ofPacket_toPacket, decodeRequest_encodeRequest]

/-- Settles O2: the request of the decoded operation is the packet's, for each of the four operation codes. -/
theorem encodeOfDecode : Obligations.EncodeOfDecode := encodePacket_decodePacket

/-! ## The assembler -/

section Bind

variable {ε α β γ : Type} {x : Except ε α}

theorem bind_eq_ok {f : α → Except ε β} {y : β} (h : x >>= f = .ok y) :
    ∃ v, x = .ok v ∧ f v = .ok y := by
  cases x with
  | error e => cases h
  | ok v => exact ⟨v, rfl, h⟩

/-- An operand whose field is refused is refused whatever would be made of the field. -/
theorem bind_eq_error {e : ε} (f : α → Except ε β) (h : x = .error e) :
    x >>= f = .error e := by
  rw [h]
  rfl

/-- A refused second operand refuses the line, by its own error or by that of a first one that is refused too. -/
theorem bind_bind_eq_error {y : Except ε β} {e : ε} (f : α → β → Except ε γ)
    (h : y = .error e) : ∃ e', (x >>= fun v => y >>= f v) = .error e' := by
  cases x with
  | error e' => exact ⟨e', rfl⟩
  | ok v => exact ⟨e, bind_eq_error (f v) h⟩

end Bind

section Assembler

variable {vars : AsmVars}

theorem field_wide_literal {w : Width} {n : Nat} (h : 2 ^ w.bits ≤ n) :
    (AsmOperand.literal n).field w vars = .error .literalTooWide := if_neg (Nat.not_lt.2 h)

/-- A 32-bit operand field has a zero upper half: a literal taken is below 2^32, and a variable is cut to its low half. -/
theorem fits32_of_field {x : AsmOperand} {v : Word64} (h : x.field .w32 vars = .ok v) : fits32 v = true := by
  apply decide_eq_true
  cases x with
  | literal n =>
    simp only [AsmOperand.field] at h
    split at h
    next hn =>
      cases h
      exact (Nat.mod_le n (2 ^ 64)).trans_lt hn
    next => cases h
  | hostVar name =>
    simp only [AsmOperand.field] at h
    split at h
    next u _ =>
      cases h
      have hlo : (zext64 (lo u)).toNat = (lo u).toNat := BitVec.toNat_setWidth_of_le (by decide)
      exact hlo.trans_lt (lo u).isLt
    next => cases h

theorem canonical_of_assemble {l : AsmLine} {i : Instr} (h : l.assemble vars = .ok i) : i.canonical = true := by
  cases l with
  | clz32 a =>
    obtain ⟨v, hv, hi⟩ := bind_eq_ok h
    cases hi
    simp [Instr.canonical, fits32_of_field hv]
  | clz64 a =>
    obtain ⟨v, hv, hi⟩ := bind_eq_ok h
    cases hi
    rfl
  | divu32 a b =>
    obtain ⟨v, hv, h⟩ := bind_eq_ok h
    obtain ⟨u, hu, hi⟩ := bind_eq_ok h
    cases hi
    simp [Instr.canonical, fits32_of_field hv, fits32_of_field hu]
  | divu64 a b =>
    obtain ⟨v, hv, h⟩ := bind_eq_ok h
    obtain ⟨u, hu, hi⟩ := bind_eq_ok h
    cases hi
    rfl

end Assembler

/-- Settles O7: a field of a 32-bit line fits in 32 bits, and a refused operand refuses the line. -/
theorem assemblerWritesCanonicalRequests : Obligations.AssemblerWritesCanonicalRequests :=
  ⟨fun _ _ _ => canonical_of_assemble,
    fun vars _ _ hm hn => ⟨assemble_clz32_literal vars hm, assemble_divu32_literal vars hm hn⟩,
    fun vars _ _ hm hn => ⟨assemble_clz64_literal vars hm, assemble_divu64_literal vars hm hn⟩,
    fun _ _ _ hm =>
      ⟨bind_eq_error _ (field_wide_literal (w := .w32) hm), bind_eq_error _ (field_wide_literal (w := .w32) hm)⟩,
    fun _ _ _ hm =>
      ⟨bind_eq_error _ (field_wide_literal (w := .w64) hm), bind_eq_error _ (field_wide_literal (w := .w64) hm)⟩,
    fun _ _ _ hn => bind_bind_eq_error _ (field_wide_literal (w := .w32) hn),
    fun _ _ _ hn => bind_bind_eq_error _ (field_wide_literal (w := .w64) hn)⟩

/-! ## A whole operation, by its start -/

section Start

variable {w : Width} {a b : BitVec w.bits} {p : Response}

/-- A divide that R68 does not take to the engine only writes its response. -/
theorem divideAt_of_direct (h : startDivide w a b = .direct p) (s : State) : s.divideAt w a b = s.respond p := by
  have hnot : ¬ generalCase a b = true := fun hg => by
    cases h.symm.trans (startDivide_eq_engine_iff.2 (generalCase_iff_entry.1 hg))
  obtain hd | ⟨he, -⟩ := startDivide_cases w a b
  · rw [divideAt_eq, if_neg hnot, Start.direct.inj (h.symm.trans hd)]
    rfl
  · cases h.symm.trans he

theorem divideAt_of_entry (hb : 0 < b) (hgt : b < a) (s : State) :
    s.divideAt w a b = { s with eng := (engineRun w a b).widen : State }.respond (divideResponse w a b) := by
  rw [divideAt_eq, if_pos (generalCase_iff_entry.2 ⟨hb, hgt⟩)]
  rfl

end Start

section StartDivu64

variable {a b : Word64}

/-! R63's order for DIVU64: divisor zero, the fast path, the divide at W = 64. -/

theorem start_divu64_zero (hb : b = 0) : start (.divu64 a b) = .direct sentinel64 := if_pos hb

theorem start_divu64_fast (hb : b ≠ 0) (hhi : hi a = 0 ∧ hi b = 0) :
    start (.divu64 a b) = startDivide .w32 (lo a) (lo b) := (if_neg hb).trans (if_pos hhi)

theorem start_divu64_wide (hb : b ≠ 0) (hhi : ¬ (hi a = 0 ∧ hi b = 0)) :
    start (.divu64 a b) = startDivide .w64 a b := (if_neg hb).trans (if_neg hhi)

end StartDivu64

/-- An operation run whole writes the response R68 knows at once, or it is the divide that R68 starts. -/
theorem exec_direct_or_divide (i : Instr) :
    (∃ p, start i = .direct p ∧ ∀ s, exec i s = .next (s.respond p)) ∨
    ∃ w a b, start i = startDivide w a b ∧ ∀ s, exec i s = .next (s.divideAt w a b) := by
  cases i with
  | clz32 a b => exact .inl ⟨_, rfl, exec_clz32 a b⟩
  | clz64 a b => exact .inl ⟨_, rfl, exec_clz64 a b⟩
  | divu32 a b => exact .inr ⟨.w32, _, _, rfl, exec_divu32 a b⟩
  | divu64 a b =>
    by_cases hb : b = 0
    · exact .inl ⟨sentinel64, start_divu64_zero hb, fun _ => if_pos hb⟩
    by_cases hhi : hi a = 0 ∧ hi b = 0
    · exact .inr ⟨.w32, lo a, lo b, start_divu64_fast hb hhi, fun _ => (if_neg hb).trans (if_pos hhi)⟩
    · exact .inr ⟨.w64, a, b, start_divu64_wide hb hhi, fun _ => (if_neg hb).trans (if_neg hhi)⟩

theorem exec_of_direct {i : Instr} {p : Response} (h : start i = .direct p) (s : State) :
    exec i s = .next (s.respond p) := by
  obtain ⟨p', hp, hexec⟩ | ⟨w, a, b, hstart, hexec⟩ := exec_direct_or_divide i
  · rw [hexec, Start.direct.inj (h.symm.trans hp)]
  · rw [hexec, divideAt_of_direct (hstart.symm.trans h)]

theorem exec_of_engine {i : Instr} {w : Width} {a b : BitVec w.bits} (h : start i = .engine w a b) (s : State) :
    exec i s = .next ({ s with eng := (engineRun w a b).widen : State }.respond (divideResponse w a b)) := by
  obtain ⟨p, hp, -⟩ | ⟨w', a', b', hstart, hexec⟩ := exec_direct_or_divide i
  · cases h.symm.trans hp
  obtain hd | ⟨he, hb, hgt⟩ := startDivide_cases w' a' b'
  · cases h.symm.trans (hstart.trans hd)
  · cases h.symm.trans (hstart.trans he)
    rw [hexec, divideAt_of_entry hb hgt]

/-- `execMeetsSpec` for a next state already named. -/
theorem exec_next {i : Instr} {s t : State} (h : exec i s = .next t) :
    t.resp = some (specResponse i) ∧ t.phase = .idle ∧ t.req = s.req ∧ t.host = s.host ∧ t.taken = s.taken := by
  obtain ⟨t', ht', hkeeps⟩ := execMeetsSpec i s
  cases h.symm.trans ht'
  exact hkeeps

/-! ## A step, by the host's next action -/

theorem readResp_of_busy {s : State} (h : s.phase ≠ .idle) : s.readResp = .error .respStale := by
  unfold State.readResp
  split
  · exact absurd ‹_› h
  · exact absurd ‹_› h
  · rfl

section HostAction

variable {s : State} {r : Request} {rest : List HostAction}

theorem step_of_issue (h : s.host = .issue r :: rest) : step s = s.issue r rest := by
  simp only [step, State.cycle, h]

theorem step_of_wait (h : s.host = .wait :: rest) : step s = { s with host := rest : State }.proceed := by
  simp only [step, State.cycle, h]

theorem step_of_tick (h : s.host = .tick :: rest) : step s = .next { s with host := rest : State }.tick := by
  simp only [step, State.cycle, h]

theorem step_of_read (h : s.host = .read :: rest) : step s = { s with host := rest : State }.read := by
  simp only [step, State.cycle, h]

theorem step_of_reset (h : s.host = .reset :: rest) : step s = .next { s with host := rest : State }.resetUnit := by
  simp only [step, State.cycle, h]

theorem step_issue_of_idle (hidle : s.phase = .idle) (h : s.host = .issue r :: rest) :
    step s = .next { s.accept r with host := rest } := by
  simp only [step_of_issue h, State.issue, hidle]

theorem step_issue_of_busy (hbusy : s.phase ≠ .idle) (h : s.host = .issue r :: rest) : step s = s.proceed :=
  (step_of_issue h).trans (issue_of_busy hbusy)

theorem step_read_of_resp {p : Response} (hidle : s.phase = .idle) (hresp : s.resp = some p)
    (h : s.host = .read :: rest) : step s = .next { s with host := rest, taken := s.taken ++ [p] } := by
  simp only [step_of_read h, State.read, State.readResp, hidle, hresp]

theorem step_read_of_no_resp (hidle : s.phase = .idle) (hresp : s.resp = none) (h : s.host = .read :: rest) :
    step s = .fault .respUnwritten := by
  simp only [step_of_read h, State.read, State.readResp, hidle, hresp]

theorem step_read_of_busy (hbusy : s.phase ≠ .idle) (h : s.host = .read :: rest) : step s = .fault .respStale := by
  rw [step_of_read h, State.read, readResp_of_busy (s := { s with host := rest }) hbusy]

end HostAction

/-! ## What a step runs -/

/-- Settles O32: an accepted request is a busy unit's own business, which a host that waits or wants to issue lets go on. -/
theorem stepRunsAcceptedRequest : Obligations.StepRunsAcceptedRequest := by
  refine fun s r hs => ⟨fun hh => ?_, fun rest hh => ?_, fun r' rest hh => ?_⟩
  · rw [step_of_no_action hh, proceed_of_accepted hs]
  · rw [step_of_wait hh]
    exact proceed_of_accepted hs
  · rw [step_issue_of_busy (by simp [hs]) hh, proceed_of_accepted hs]

/-- A placed request is run by the next step, in the state that has accepted it. -/
theorem step_placeRequest (s : State) (r : Request) : step (s.placeRequest r) = exec (decodeRequest r) (s.accept r) := by
  rw [step_of_wait (placeRequest_host s r)]
  exact proceed_of_accepted rfl

/-- A table word that the decoder takes is the packet of the operation it decodes to. -/
theorem decodePacket_of_decodeTableWord {nbits w : Nat} {i : Instr} (h : decodeTableWord nbits w = some i) :
    decodePacket (BitVec.ofNat Config.requestBits (w % 2 ^ nbits)) = i := by
  by_cases hfit : w % 2 ^ nbits < 2 ^ Config.requestBits
  · simp only [decodeTableWord, decodeBits, if_pos hfit] at h
    exact Option.some.inj h
  · simp only [decodeTableWord, decodeBits, if_neg hfit] at h
    cases h

/-- Settles O33: the placed request is the encoding of the decoded operation. -/
theorem placedWordRuns : Obligations.PlacedWordRuns := by
  intro s nbits w i h
  obtain rfl := decodePacket_of_decodeTableWord h
  rw [State.withFetchWord, step_placeRequest, decodePacket, encodeRequest_decodeRequest]
  rfl

/-! ## What the unit does not look at while it goes on -/

/-- The state with REQ and the host's lists replaced: what the unit reads no more once a request is accepted (R11). -/
def withInterface (s : State) (req : Option Request) (host : List HostAction) (taken : List Response) : State :=
  { s with req := req, host := host, taken := taken }

section Proceed

variable {s t : State}

theorem exec_withInterface {i : Instr} (h : exec i s = .next t) (req : Option Request) (host : List HostAction)
    (taken : List Response) : exec i (withInterface s req host taken) = .next (withInterface t req host taken) := by
  cases hstart : start i with
  | direct p =>
    cases (exec_of_direct hstart s).symm.trans h
    exact exec_of_direct hstart _
  | engine w a b =>
    cases (exec_of_engine hstart s).symm.trans h
    exact exec_of_engine hstart _

theorem tick_withInterface (s : State) (req : Option Request) (host : List HostAction) (taken : List Response) :
    (withInterface s req host taken).tick = withInterface s.tick req host taken := by
  cases hs : s.phase with
  | idle => rw [tick_of_idle hs]; exact tick_of_idle hs
  | accepted r => rw [tick_of_accepted hs]; exact tick_of_accepted hs
  | align w a b => rw [tick_of_align hs]; exact tick_of_align hs
  | iter w => rw [tick_of_iter hs]; exact tick_of_iter hs
  | done p => rw [tick_of_done hs]; exact tick_of_done hs

theorem proceed_withInterface (h : s.proceed = .next t) (req : Option Request) (host : List HostAction)
    (taken : List Response) : (withInterface s req host taken).proceed = .next (withInterface t req host taken) := by
  obtain ⟨r, hs, hexec⟩ | ⟨hs, rfl⟩ := proceed_cases h
  · exact (proceed_of_accepted (s := withInterface s req host taken) hs).trans (exec_withInterface hexec req host taken)
  · exact (proceed_of_not_accepted (s := withInterface s req host taken) hs).trans
      (congrArg Host.Outcome.next (tick_withInterface s req host taken))

theorem proceed_keeps (h : s.proceed = .next t) : t.req = s.req ∧ t.host = s.host ∧ t.taken = s.taken := by
  obtain ⟨r, -, hexec⟩ | ⟨-, rfl⟩ := proceed_cases h
  · obtain ⟨-, -, hkeeps⟩ := exec_next hexec
    exact hkeeps
  · exact tick_keeps s

theorem proceed_with_req (h : s.proceed = .next t) (req : Option Request) :
    { s with req := req : State }.proceed = .next { t with req := req } := by
  obtain ⟨-, hhost, htaken⟩ := proceed_keeps h
  exact (proceed_withInterface h req s.host s.taken).trans (by rw [withInterface, ← hhost, ← htaken])

theorem proceed_with_host (h : s.proceed = .next t) (host : List HostAction) :
    { s with host := host : State }.proceed = .next { t with host := host } := by
  obtain ⟨hreq, -, htaken⟩ := proceed_keeps h
  exact (proceed_withInterface h s.req host s.taken).trans (by rw [withInterface, ← hreq, ← htaken])

/-- The unit alone always has a next state. -/
theorem exists_proceed (s : State) : ∃ t, s.proceed = .next t := by
  by_cases hacc : ∃ r, s.phase = .accepted r
  · obtain ⟨r, hs⟩ := hacc
    obtain ⟨t, hexec, -⟩ := execMeetsSpec (decodeRequest r) s
    exact ⟨t, (proceed_of_accepted hs).trans hexec⟩
  · exact ⟨s.tick, proceed_of_not_accepted (not_exists.1 hacc)⟩

end Proceed

/-- Only the host's issue and its reset write REQ. -/
theorem step_keeps_req {s t : State} (hstep : step s = .next t) (hissue : ∀ r rest, s.host ≠ .issue r :: rest)
    (hreset : ∀ rest, s.host ≠ .reset :: rest) : t.req = s.req := by
  obtain ⟨-, hgo⟩ | ⟨rest, -, hgo⟩ | ⟨r, rest, hh, -⟩ | ⟨r, rest, hh, -⟩ | ⟨rest, -, rfl⟩ |
    ⟨p, rest, -, -, -, rfl⟩ | ⟨rest, hh, -⟩ := step_cases hstep
  · exact (proceed_keeps hgo).1
  · exact (proceed_keeps hgo).1
  · exact absurd hh (hissue r rest)
  · exact absurd hh (hissue r rest)
  · exact (tick_keeps _).1
  · rfl
  · exact absurd hh (hreset rest)

/-- Settles O34: an idle unit takes the issue, no other action but reset writes REQ, and the unit alone does not read it. -/
theorem requestIsReadOnce : Obligations.RequestIsReadOnce := by
  refine ⟨fun s r rest => step_issue_of_idle, fun s t => step_keeps_req, fun s q _ hh => ?_⟩
  obtain ⟨t, ht⟩ := exists_proceed s
  exact ⟨t, (step_of_no_action hh).trans ht,
    (step_of_no_action (s := { s with req := q }) hh).trans (proceed_with_req ht q)⟩

/-- Settles O35: with an issue that waits the unit goes on alone, which leaves REQ and the host's list as they are. -/
theorem issueWaitsWhileBusy : Obligations.IssueWaitsWhileBusy := by
  intro s r rest hbusy hh
  obtain ⟨t, ht⟩ := exists_proceed s
  obtain ⟨hreq, hhost, -⟩ := proceed_keeps ht
  exact ⟨t, (step_issue_of_busy hbusy hh).trans ht, hreq, hhost,
    (step_of_no_action (s := { s with host := [] }) rfl).trans (proceed_with_host ht [])⟩

/-! ## The host's read and reset -/

/-- Settles O36: the three answers of a read, by the unit's phase and by what RESP holds. -/
theorem hostReadsResponse : Obligations.HostReadsResponse := fun _ _ hh =>
  ⟨fun _ hidle hresp => step_read_of_resp hidle hresp hh, fun hidle hresp => step_read_of_no_resp hidle hresp hh,
    fun hbusy => step_read_of_busy hbusy hh⟩

theorem step_of_idle_alone {s : State} (hidle : s.phase = .idle) (hh : s.host = []) : step s = .next s := by
  rw [step_of_no_action hh, proceed_of_not_accepted (by simp [hidle]), tick_of_idle hidle]

/-- Settles O37: reset leaves an idle unit without a response, which a read refuses and which stays as it is alone. -/
theorem resetAbandonsOperation : Obligations.ResetAbandonsOperation :=
  ⟨⟨rfl, rfl, rfl⟩, fun _ _ hh => ⟨_, step_of_reset hh, rfl, rfl, rfl, rfl, rfl,
    fun _ hrest => step_read_of_no_resp rfl rfl hrest, fun hrest => step_of_idle_alone rfl hrest⟩⟩

/-! ## The faults -/

theorem readable_iff (s : State) : s.readable = true ↔ s.phase = .idle ∧ ∃ p, s.resp = some p := by
  simp [State.readable, State.busy, Option.isSome_iff_exists]

theorem step_read_of_readable {s : State} {rest : List HostAction} (hh : s.host = .read :: rest)
    (hread : s.readable = true) : ∃ t, step s = .next t := by
  obtain ⟨hidle, p, hresp⟩ := (readable_iff s).1 hread
  exact ⟨_, step_read_of_resp hidle hresp hh⟩

theorem step_misread {s : State} {rest : List HostAction} (hh : s.host = .read :: rest)
    (hread : ¬ s.readable = true) : ∃ f, step s = .fault f := by
  by_cases hidle : s.phase = .idle
  · have hresp : s.resp = none :=
      Option.eq_none_iff_forall_ne_some.2 fun p hp => hread ((readable_iff s).2 ⟨hidle, p, hp⟩)
    exact ⟨_, step_read_of_no_resp hidle hresp hh⟩
  · exact ⟨_, step_read_of_busy hidle hh⟩

/-- Every action of the host but a misread, and the unit alone, has a next state. -/
theorem exists_step {s : State} (h : (∃ rest, s.host = .read :: rest) → s.readable = true) : ∃ t, step s = .next t := by
  obtain ⟨u, hu⟩ := exists_proceed s
  match hh : s.host with
  | [] => exact ⟨u, (step_of_no_action hh).trans hu⟩
  | .issue r :: rest =>
    by_cases hidle : s.phase = .idle
    · exact ⟨_, step_issue_of_idle hidle hh⟩
    · exact ⟨u, (step_issue_of_busy hidle hh).trans hu⟩
  | .wait :: rest => exact ⟨_, (step_of_wait hh).trans (proceed_with_host hu rest)⟩
  | .tick :: rest => exact ⟨_, step_of_tick hh⟩
  | .read :: rest => exact step_read_of_readable hh (h ⟨rest, hh⟩)
  | .reset :: rest => exact ⟨_, step_of_reset hh⟩

theorem step_ne_refused (s : State) (r : Refusal) : step s ≠ .refused r := by
  by_cases h : (∃ rest, s.host = .read :: rest) → s.readable = true
  · obtain ⟨t, ht⟩ := exists_step h
    simp [ht]
  · obtain ⟨⟨rest, hh⟩, hread⟩ := Classical.not_imp.1 h
    obtain ⟨f, hf⟩ := step_misread hh hread
    simp [hf]

theorem safe_iff (s : State) : s.Safe ↔ ((∃ rest, s.host = .read :: rest) → s.readable = true) := by
  constructor
  · rintro hsafe ⟨rest, hh⟩
    by_contra hread
    obtain ⟨f, hf⟩ := step_misread hh hread
    exact hsafe f hf
  · intro h f
    obtain ⟨t, ht⟩ := exists_step h
    simp [ht]

/-- Settles O39: an operation and the unit alone have a next state; a read has one where it may be made. -/
theorem onlyMisreadsFault : Obligations.OnlyMisreadsFault := by
  refine ⟨fun i s => ?_, step_ne_refused, safe_iff⟩
  obtain ⟨t, ht, -⟩ := execMeetsSpec i s
  simp [ht]

/-! ## When RESP and the working registers change -/

/-- Two states with the same unit, REQ and the host's lists aside. -/
structure SameUnit (s t : State) : Prop where
  phase : s.phase = t.phase
  resp : s.resp = t.resp
  eng : s.eng = t.eng

theorem sameUnit_tick_withInterface (s : State) (req : Option Request) (host : List HostAction) (taken : List Response) :
    SameUnit (withInterface s req host taken).tick s.tick := by
  rw [tick_withInterface]
  exact ⟨rfl, rfl, rfl⟩

/-- What a step from `s` to `t` that is no reset does to the unit. -/
inductive UnitStep (s t : State) : Prop where
  /-- It runs the accepted request whole. -/
  | whole {r : Request} {u : State} (hs : s.phase = .accepted r) (hexec : exec (decodeRequest r) s = .next u)
      (hsame : SameUnit t u)
  /-- It takes one arrow of R68. -/
  | arrow (hsame : SameUnit t s.tick)
  /-- The host reads from the idle unit or issues to it. -/
  | stays (hidle : s.phase = .idle) (hresp : t.resp = s.resp) (heng : t.eng = s.eng)

theorem unitStep_of_proceed {s t : State} {host : List HostAction}
    (h : { s with host := host : State }.proceed = .next t) : UnitStep s t := by
  obtain ⟨u, hu⟩ := exists_proceed s
  cases h.symm.trans (proceed_with_host hu host)
  obtain ⟨r, hs, hexec⟩ | ⟨-, rfl⟩ := proceed_cases hu
  · exact .whole hs hexec ⟨rfl, rfl, rfl⟩
  · exact .arrow ⟨rfl, rfl, rfl⟩

theorem unitStep_of_step {s t : State} (hstep : step s = .next t) (hreset : ∀ rest, s.host ≠ .reset :: rest) :
    UnitStep s t := by
  obtain ⟨-, hgo⟩ | ⟨rest, -, hgo⟩ | ⟨r, rest, -, hidle, rfl⟩ | ⟨r, rest, -, -, hgo⟩ | ⟨rest, -, rfl⟩ |
    ⟨p, rest, -, hidle, -, rfl⟩ | ⟨rest, hh, -⟩ := step_cases hstep
  · exact unitStep_of_proceed (host := s.host) hgo
  · exact unitStep_of_proceed hgo
  · exact .stays hidle rfl rfl
  · exact unitStep_of_proceed (host := s.host) hgo
  · exact .arrow (sameUnit_tick_withInterface s s.req rest s.taken)
  · exact .stays hidle rfl rfl
  · exact absurd hh (hreset rest)

/-- The only arrow that writes RESP, or that leaves a busy unit idle, is DONE's. -/
theorem tick_ends_operation {s : State} (h : s.tick.resp ≠ s.resp ∨ (s.phase ≠ .idle ∧ s.tick.phase = .idle)) :
    ∃ p, s.phase = .done p ∧ s.tick.resp = some p := by
  cases hs : s.phase with
  | idle => simp [tick_of_idle hs, hs] at h
  | accepted r => simp [tick_of_accepted hs] at h
  | align w a b => simp [tick_of_align hs] at h
  | iter w => simp [tick_of_iter hs] at h
  | done p => exact ⟨p, rfl, by rw [tick_of_done hs, respond_resp]⟩

theorem tick_changes_eng {s : State} (h : s.tick.eng ≠ s.eng) :
    (∃ w a b, s.phase = .align w a b) ∨ ∃ w, s.phase = .iter w := by
  cases hs : s.phase with
  | idle => simp [tick_of_idle hs] at h
  | accepted r => simp [tick_of_accepted hs] at h
  | align w a b => exact .inl ⟨w, a, b, rfl⟩
  | iter w => exact .inr ⟨w, rfl⟩
  | done p => simp [tick_of_done hs] at h

theorem exec_changes_eng {i : Instr} {s t : State} (hexec : exec i s = .next t) (h : t.eng ≠ s.eng) :
    ∃ w a b, start i = .engine w a b := by
  cases hstart : start i with
  | direct p =>
    cases (exec_of_direct hstart s).symm.trans hexec
    exact absurd rfl h
  | engine w a b => exact ⟨w, a, b, rfl⟩

/-- A step that leaves an operation in flight leaves RESP as it was. -/
theorem step_keeps_resp {s t : State} (hstep : step s = .next t) (hbusy : t.phase ≠ .idle) : t.resp = s.resp := by
  by_cases hreset : ∃ rest, s.host = .reset :: rest
  · obtain ⟨rest, hh⟩ := hreset
    cases (step_of_reset hh).symm.trans hstep
    exact absurd rfl hbusy
  cases unitStep_of_step hstep (not_exists.1 hreset) with
  | whole hs hexec hsame =>
    obtain ⟨-, hphase, -⟩ := exec_next hexec
    exact absurd (hsame.phase.trans hphase) hbusy
  | arrow hsame => exact hsame.resp.trans (tick_resp (hsame.phase ▸ hbusy))
  | stays _ hresp _ => exact hresp

/-- What a step, no reset, writes to RESP is a whole response: that of DONE, or that of the accepted request. -/
theorem step_writes_resp {s t : State} (hstep : step s = .next t) (hreset : ∀ rest, s.host ≠ .reset :: rest)
    (hends : t.resp ≠ s.resp ∨ (s.phase ≠ .idle ∧ t.phase = .idle)) :
    ∃ p, t.resp = some p ∧
      (s.phase = .done p ∨ ∃ r, s.phase = .accepted r ∧ p = specResponse (decodeRequest r)) := by
  cases unitStep_of_step hstep hreset with
  | whole hs hexec hsame =>
    obtain ⟨hresp, -⟩ := exec_next hexec
    exact ⟨_, hsame.resp.trans hresp, .inr ⟨_, hs, rfl⟩⟩
  | arrow hsame =>
    rw [hsame.resp, hsame.phase] at hends
    obtain ⟨p, hs, hresp⟩ := tick_ends_operation hends
    exact ⟨p, hsame.resp.trans hresp, .inl hs⟩
  | stays hidle hresp _ => simp [hidle, hresp] at hends

theorem step_read_keeps_resp {s t : State} {rest : List HostAction} (hh : s.host = .read :: rest)
    (hstep : step s = .next t) : t.resp = s.resp := by
  by_cases hread : s.readable = true
  · obtain ⟨hidle, p, hresp⟩ := (readable_iff s).1 hread
    cases (step_read_of_resp hidle hresp hh).symm.trans hstep
    rfl
  · obtain ⟨f, hf⟩ := step_misread hh hread
    cases hf.symm.trans hstep

/-- Settles O40: RESP is written by DONE's arrow and by a whole run, and both leave the unit idle. -/
theorem responseAppearsWhole : Obligations.ResponseAppearsWhole :=
  ⟨fun _ _ => step_keeps_resp, fun _ _ => step_writes_resp, fun _ _ => step_read_of_busy,
    fun _ _ _ => step_read_keeps_resp⟩

/-- Settles O41: by an arrow, the working registers change in ALIGN and ITER; by a whole run, where R68 starts the engine. -/
theorem workingRegistersChangeOnlyInEngine : Obligations.WorkingRegistersChangeOnlyInEngine := by
  intro s t hstep hchange hreset
  cases unitStep_of_step hstep hreset with
  | whole hs hexec hsame =>
    obtain ⟨w, a, b, hstart⟩ := exec_changes_eng hexec (hsame.eng ▸ hchange)
    exact .inr (.inr ⟨_, w, a, b, hs, hstart⟩)
  | arrow hsame => exact (tick_changes_eng (hsame.eng ▸ hchange)).imp_right .inl
  | stays _ _ heng => exact absurd heng hchange

/-! ## The arrows of R68 -/

section StartDivu64

variable {a b : Word64}

/-- The fast path compares the low halves, which there are the numbers themselves. -/
theorem entry_lo_iff (hhi : hi a = 0 ∧ hi b = 0) : (0 < lo b ∧ lo b < lo a) ↔ (0 < b ∧ b < a) := by
  rw [word_pos_iff, word_pos_iff, ne_eq, ne_eq, lo_eq_zero_iff hhi.2, BitVec.lt_def, BitVec.lt_def,
    lo_toNat_of_hi_eq_zero hhi.1, lo_toNat_of_hi_eq_zero hhi.2]

theorem startDivide_ne_engine {w w' : Width} (hw : w ≠ w') (x y : BitVec w.bits) (x' y' : BitVec w'.bits) :
    startDivide w x y ≠ .engine w' x' y' := by
  intro h
  obtain hd | ⟨he, -⟩ := startDivide_cases w x y
  · cases h.symm.trans hd
  · cases h.symm.trans he
    exact hw rfl

theorem start_divu64_direct (h : ¬ (0 < b ∧ b < a)) : ∃ p, start (.divu64 a b) = .direct p := by
  by_cases hb : b = 0
  · exact ⟨_, start_divu64_zero hb⟩
  by_cases hhi : hi a = 0 ∧ hi b = 0
  · rw [start_divu64_fast hb hhi]
    exact startDivide_of_not_entry (mt (entry_lo_iff hhi).1 h)
  · rw [start_divu64_wide hb hhi]
    exact startDivide_of_not_entry h

/-- Whatever the width, DIVU64 reaches the engine only with `a > b > 0`. -/
theorem entry_of_start_divu64 {w : Width} {x y : BitVec w.bits} (h : start (.divu64 a b) = .engine w x y) :
    0 < b ∧ b < a := by
  by_contra hn
  obtain ⟨p, hp⟩ := start_divu64_direct hn
  cases h.symm.trans hp

theorem start_divu64_engine64_iff :
    start (.divu64 a b) = .engine .w64 a b ↔ (hi a ≠ 0 ∨ hi b ≠ 0) ∧ 0 < b ∧ b < a := by
  rw [← not_and_or]
  constructor
  · intro h
    obtain ⟨hb, hgt⟩ := entry_of_start_divu64 h
    refine ⟨fun hhi => ?_, hb, hgt⟩
    rw [start_divu64_fast (word_pos_iff.1 hb) hhi] at h
    exact startDivide_ne_engine (by decide) _ _ _ _ h
  · rintro ⟨hhi, hb, hgt⟩
    rw [start_divu64_wide (word_pos_iff.1 hb) hhi]
    exact startDivide_of_entry (w := .w64) hb hgt

theorem start_divu64_engine32_iff :
    start (.divu64 a b) = .engine .w32 (lo a) (lo b) ↔ (hi a = 0 ∧ hi b = 0) ∧ 0 < b ∧ b < a := by
  constructor
  · intro h
    obtain ⟨hb, hgt⟩ := entry_of_start_divu64 h
    refine ⟨by_contra fun hhi => ?_, hb, hgt⟩
    rw [start_divu64_wide (word_pos_iff.1 hb) hhi] at h
    exact startDivide_ne_engine (by decide) _ _ _ _ h
  · rintro ⟨hhi, hentry⟩
    rw [start_divu64_fast (word_pos_iff.1 hentry.1) hhi]
    exact startDivide_eq_engine_iff (w := .w32).2 ((entry_lo_iff hhi).2 hentry)

end StartDivu64

theorem start_direct {i : Instr} {p : Response} (h : start i = .direct p) : p = specResponse i := by
  obtain hd | ⟨w, a, b, he, -⟩ := start_cases i
  · exact Start.direct.inj (h.symm.trans hd)
  · cases h.symm.trans he

theorem tick_of_iter_widen {s : State} {w : Width} {e : Regs w.bits} (hs : s.phase = .iter w) (heng : s.eng = e.widen) :
    s.tick = { s with eng := e.iterate.widen, phase := e.iterate.nextPhase } := by
  rw [tick_of_iter hs, State.iterate, heng, narrow_widen]

/-- Settles O42: the edge policy at the width and with the operands of each operation, and then one arrow from each phase. -/
theorem phaseArrows : Obligations.PhaseArrows := by
  refine ⟨fun a b => ⟨⟨_, rfl⟩, ⟨_, rfl⟩, startDivide_eq_engine_iff, startDivide_of_not_entry,
      start_divu64_engine64_iff, start_divu64_engine32_iff, start_divu64_direct⟩,
    fun s => ⟨fun r hs => ⟨fun w a b h => ?_, fun p h => ?_⟩, fun w a b => tick_of_align,
      fun w e hs heng => ⟨fun hbw hrem => ?_, fun hend => ?_⟩, fun p => tick_of_done, tick_of_idle,
      fun rest => step_of_tick⟩⟩
  · obtain ⟨hb, hgt, -⟩ := start_engine h
    exact ⟨by rw [tick_of_accepted hs, h, Start.phase], hb, hgt⟩
  · exact ⟨by rw [tick_of_accepted hs, h, Start.phase], start_direct h⟩
  · rw [tick_of_iter_widen hs heng, nextPhase_of_not_finished ((not_finished_iff _).2 ⟨hbw, hrem⟩), ← hs]
  · rw [tick_of_iter_widen hs heng, nextPhase_of_finished ((finished_iff _).2 hend)]
    rfl

/-! ## The arrows end where the whole operation does -/

/-- From ITER, as many arrows as the loop has iterations lead to DONE, with the working registers the loop leaves. -/
theorem iterate_tick_of_loopInv {s : State} {w : Width} {a b : BitVec w.bits} {k fuel : Nat} {e : Regs w.bits}
    (hs : s.phase = .iter w) (heng : s.eng = e.widen) (h : LoopInv w a b k e) (hk : k < fuel) :
    State.tick^[e.loopCount fuel] s =
      { s with eng := (e.loop fuel).widen, phase := .done (divideResponse w a b) } := by
  induction fuel generalizing s k e with
  | zero => exact absurd hk (Nat.not_lt_zero k)
  | succ fuel ih =>
    have htick := tick_of_iter_widen hs heng
    cases hend : e.iterate.finished with
    | true =>
      rw [loopCount_of_finished fuel hend, loop_of_finished fuel hend, Function.iterate_one, htick,
        nextPhase_of_finished hend, loopInv_iterate_response h hend]
    | false =>
      have hpos := loopInv_index_pos h hend
      rw [nextPhase_of_not_finished hend] at htick
      rw [loopCount_of_not_finished fuel hend, loop_of_not_finished fuel hend, Function.iterate_succ_apply,
        ih (s := s.tick) (by rw [htick]) (by rw [htick]) (loopInv_iterate h hend) (by omega), htick]

/-- From ALIGN: one arrow loads, the others are the engine's run. -/
theorem iterate_tick_of_align {s : State} {w : Width} {a b : BitVec w.bits} (hs : s.phase = .align w a b)
    (hb : 0 < b) (hab : b ≤ a) :
    State.tick^[iterationCount w a b + 1] s =
      { s with eng := (engineRun w a b).widen, phase := .done (divideResponse w a b) } := by
  rw [Function.iterate_succ_apply, tick_of_align hs]
  exact iterate_tick_of_loopInv rfl rfl (loopInv_load hb hab) (alignShift_lt hb hab)

/-- From acceptance to DONE: one arrow where R68 knows the response, at most W + 2 with the engine at width W; what DONE then
writes is the state of the whole operation. -/
theorem accepted_reaches_done {s : State} {r : Request} (hs : s.phase = .accepted r) :
    ∃ m u p, State.tick^[m] s = u ∧ u.phase = .done p ∧ exec (decodeRequest r) s = .next (u.respond p) ∧
      (∀ p', start (decodeRequest r) = .direct p' → m = 1) ∧
      (∀ w a b, start (decodeRequest r) = .engine w a b → m ≤ w.bits + 2) := by
  have htick := tick_of_accepted hs
  cases hstart : start (decodeRequest r) with
  | direct p =>
    rw [hstart] at htick
    exact ⟨1, _, p, htick, rfl, exec_of_direct hstart s, fun _ _ => rfl, fun _ _ _ h => (nomatch h)⟩
  | engine w a b =>
    obtain ⟨hb, hgt, -⟩ := start_engine hstart
    have hab := BitVec.le_of_lt hgt
    have hcount : iterationCount w a b ≤ w.bits := (iterationCount_le hb hab).trans (alignShift_lt hb hab)
    rw [hstart] at htick
    refine ⟨iterationCount w a b + 2, { s with eng := (engineRun w a b).widen, phase := .done (divideResponse w a b) },
      divideResponse w a b, ?_, rfl, exec_of_engine hstart s, fun _ h => (nomatch h), fun _ _ _ h => ?_⟩
    · rw [Function.iterate_succ_apply, htick]
      exact iterate_tick_of_align rfl hb hab
    · cases h
      omega

/-- A unit that arrows have left busy was busy all the way, and RESP stayed. -/
theorem busy_before {s : State} {m k : Nat} (hbusy : (State.tick^[m] s).phase ≠ .idle) (hk : k ≤ m) :
    (State.tick^[k] s).phase ≠ .idle ∧ (State.tick^[k] s).resp = s.resp := by
  induction m generalizing k with
  | zero =>
    obtain rfl := Nat.le_zero.1 hk
    exact ⟨hbusy, rfl⟩
  | succ m ih =>
    rw [Function.iterate_succ_apply'] at hbusy
    have hm : (State.tick^[m] s).phase ≠ .idle := fun hidle => hbusy (by rwa [tick_of_idle hidle])
    obtain hk | rfl := Nat.le_succ_iff.1 hk
    · exact ih hm hk
    · rw [Function.iterate_succ_apply']
      exact ⟨hbusy, (tick_resp hbusy).trans (ih hm le_rfl).2⟩

/-- Settles O43: the arrows reach DONE with the working registers of the whole operation, and the last one writes RESP. -/
theorem ticksRefineExec : Obligations.TicksRefineExec := by
  intro s r hs
  obtain ⟨m, u, p, rfl, hdone, hexec, hdirect, hengine⟩ := accepted_reaches_done hs
  refine ⟨_, m + 1, hexec, ?_, rfl, fun p' h => congrArg Nat.succ (hdirect p' h),
    fun w a b h => Nat.succ_le_succ (hengine w a b h), fun k hk => busy_before (by simp [hdone]) (Nat.le_of_lt_succ hk)⟩
  rw [Function.iterate_succ_apply', tick_of_done hdone]

/-! ## The invariant -/

section Invariant

variable {s t : State}

/-- The invariant speaks of the unit only, not of the host's lists. -/
theorem inv_of_host_lists (h : s.Inv) (host : List HostAction) (taken : List Response) :
    { s with host := host, taken := taken : State }.Inv :=
  ⟨h.idle, h.accepted, h.align, h.iter, h.done⟩

theorem inv_of_no_response (hidle : s.phase = .idle) (hresp : s.resp = none) : s.Inv where
  idle := by simp [hresp]
  accepted := by simp [hidle]
  align := by simp [hidle]
  iter := by simp [hidle]
  done := by simp [hidle]

theorem inv_of_accepted {r : Request} (h : s.phase = .accepted r) (hreq : s.req = some r) : s.Inv where
  idle := by simp [h]
  accepted r' h' := by
    cases h.symm.trans h'
    exact hreq
  align := by simp [h]
  iter := by simp [h]
  done := by simp [h]

/-- The unit alone keeps the invariant: run whole, by the response of the mathematics; by an arrow, as `inv_tick` says. -/
theorem inv_proceed (h : s.Inv) (hstep : s.proceed = .next t) : t.Inv := by
  obtain ⟨r, hs, hexec⟩ | ⟨-, rfl⟩ := proceed_cases hstep
  · obtain ⟨hresp, hphase, hreq, -⟩ := exec_next hexec
    exact inv_of_idle hphase (hreq.trans (h.accepted r hs)) hresp
  · exact inv_tick h

theorem inv_step (h : s.Inv) (hstep : step s = .next t) : t.Inv := by
  obtain ⟨-, hgo⟩ | ⟨rest, -, hgo⟩ | ⟨r, rest, -, -, rfl⟩ | ⟨r, rest, -, -, hgo⟩ | ⟨rest, -, rfl⟩ |
    ⟨p, rest, -, -, -, rfl⟩ | ⟨rest, -, rfl⟩ := step_cases hstep
  · exact inv_proceed h hgo
  · exact inv_proceed (inv_of_host_lists h rest s.taken) hgo
  · exact inv_of_accepted rfl rfl
  · exact inv_proceed h hgo
  · exact inv_tick (inv_of_host_lists h rest s.taken)
  · exact inv_of_host_lists h rest _
  · exact inv_of_no_response rfl rfl

end Invariant

/-- Settles O45: right after reset there is no response and nothing in flight for the invariant to speak of. -/
theorem invAtReset : Obligations.InvAtReset := inv_of_no_response rfl rfl

/-- Settles O46: each action of the host, and the unit alone, keeps the invariant. -/
theorem stepKeepsInv : Obligations.StepKeepsInv := fun _ _ => inv_step

/-! ## The host's calls -/

/-- A call on an idle unit takes three steps: the unit accepts the request, runs it, and gives its response to the read. -/
theorem run_hostCall {s : State} {r : Request} {rest : List HostAction} (hidle : s.phase = .idle)
    (hh : s.host = hostCall r ++ rest) :
    ∃ t, (∀ n, core.run (n + 3) s = core.run n t) ∧ t.phase = .idle ∧ t.host = rest ∧
      t.resp = some (specResponse (decodeRequest r)) ∧ t.taken = s.taken ++ [specResponse (decodeRequest r)] := by
  have haccept := step_issue_of_idle hidle hh
  obtain ⟨u, hexec, hresp, hphase, -, hhost, htaken⟩ :=
    execMeetsSpec (decodeRequest r) { s.accept r with host := .read :: rest }
  have hrun : step { s.accept r with host := .wait :: .read :: rest } = .next u :=
    (step_of_wait rfl).trans ((proceed_of_accepted rfl).trans hexec)
  have hread := step_read_of_resp hphase hresp hhost
  have hsteps (n : Nat) : core.run (n + 3) s = core.run n _ :=
    (run_succ_of_step _ haccept).trans ((run_succ_of_step _ hrun).trans (run_succ_of_step n hread))
  exact ⟨_, hsteps, hphase, rfl, hresp, congrArg (· ++ _) htaken⟩

/-- Settles O38: the host's call on the unit right after reset. -/
theorem firstRequestAfterReset : Obligations.FirstRequestAfterReset := by
  intro r
  obtain ⟨t, hrun, hphase, -, hresp, htaken⟩ :=
    run_hostCall (s := { State.reset with host := hostCall r }) (rest := []) rfl rfl
  exact ⟨t, hrun 0, hresp, htaken, hphase⟩

/-- Settles O47: each call leaves the unit idle again, with the rest of the calls to come. -/
theorem responsesInRequestOrder : Obligations.ResponsesInRequestOrder := by
  intro s rs hidle hh
  induction rs generalizing s with
  | nil => exact ⟨s, rfl, hidle, hh, (List.append_nil _).symm⟩
  | cons r rs ih =>
    obtain ⟨t, hrun, hphase, hhost, -, htaken⟩ := run_hostCall hidle hh
    obtain ⟨u, hu, huphase, huhost, hutaken⟩ := ih t hphase hhost
    exact ⟨u, (hrun _).trans hu, huphase, huhost, by simp [hutaken, htaken]⟩

/-! ## Several units -/

section Platform

variable {n : Nat} {p p' : Platform n} {k : Fin n}

theorem stepUnit_of_step {t : State} (h : step p[k] = .next t) : p.stepUnit k = .next (p.set k t) := by
  simp only [Platform.stepUnit, h]

theorem stepUnit_cases (h : p.stepUnit k = .next p') : ∃ t, step p[k] = .next t ∧ p' = p.set k t := by
  unfold Platform.stepUnit at h
  split at h
  next t ht =>
    cases h
    exact ⟨t, ht, rfl⟩
  next => cases h
  next => cases h

theorem set_get_same (p : Platform n) (k : Fin n) (t : State) : (p.set k t)[k] = t := Vector.getElem_set_self k.isLt

theorem set_get_other (p : Platform n) {j k : Fin n} (t : State) (hjk : j ≠ k) : (p.set k t)[j] = p[j] :=
  Vector.getElem_set_ne k.isLt j.isLt fun h => hjk (Fin.ext h.symm)

end Platform

/-- Settles O48: a step of one instance sets its own place in the platform, and the places of two are different. -/
theorem instancesAreIndependent : Obligations.InstancesAreIndependent := by
  refine ⟨fun n p p' k h => ?_, fun n p pj pk j k hjk hj hk => ?_⟩
  · obtain ⟨t, ht, rfl⟩ := stepUnit_cases h
    rw [set_get_same]
    exact ⟨ht, fun j hjk => set_get_other p t hjk⟩
  · obtain ⟨tj, htj, rfl⟩ := stepUnit_cases hj
    obtain ⟨tk, htk, rfl⟩ := stepUnit_cases hk
    refine ⟨_, stepUnit_of_step ((congrArg step (set_get_other p tj hjk.symm)).trans htk), ?_⟩
    rw [stepUnit_of_step ((congrArg step (set_get_other p tk hjk)).trans htj)]
    exact congrArg _ (Vector.set_comm tk tj fun h => hjk (Fin.ext h.symm))

end Sys2Proof.Proofs
end
